-- ==== Sys2Proof/Word.lean ====
section
/-! DEFINITION. The widths of the machine's values (spec 00_scope.md R8, R9): bits are numbered from 0, the least
significant; every value is unsigned. -/

namespace Sys2Proof

/-- 4 bits: one of the fields `c`, `x`, `y`, `d` of an instruction word (R71). -/
abbrev Nibble := BitVec 4

/-- 8 bits: a memory byte (R36) or a general register (R21). -/
abbrev Byte := BitVec 8

/-- 12 bits: the operand `nnn` of CALL (R71, R74). -/
abbrev Addr12 := BitVec 12

/-- 16 bits: an instruction word (R70), the program counter (R27), a call-stack entry (R32). -/
abbrev Word := BitVec 16

end Sys2Proof
end

