-- ==== Sys2Proof/Config.lean ====
section
/-! DEFINITION. The implementation parameters of spec 00_scope.md R6, at the values this hardware takes (R7, decision
D19 of 92_eei_decisions.md). The spec leaves no value open, so there is no free value here (40_step_cycle.md R98). -/

namespace Sys2Proof

/-- `MEM_SIZE`: bytes of memory. DESIGN CHOICE (log entry 6): fixed at the reference value. -/
abbrev Config.memSize : Nat := 4096

/-- `STACK_DEPTH`: entries of the call stack. DESIGN CHOICE (log entry 6): fixed at the reference value. -/
abbrev Config.stackDepth : Nat := 16

/-- `NREGS`: general registers; not a parameter (R6). -/
abbrev Config.nregs : Nat := 16

/-- `ENTRY_POINT`: the program counter after reset. DESIGN CHOICE (log entry 6): the reference value. -/
abbrev Config.entryPoint : Word := 0x0000#16

/-- `INSN_BYTES`: bytes per instruction; not a parameter (R6). -/
abbrev Config.insnBytes : Word := 2#16

/-- `FLAG_INDEX`: the general register that receives the carry of every ADD; not a parameter (R6, R24). -/
abbrev Config.flagIndex : Fin Config.nregs := 15

end Sys2Proof
end

