-- ==== Sys2Proof/Syntax.lean ====
section
/-! DEFINITION. The instructions: one constructor per row of spec/opcode_table.json (spec 30_encoding.md R75), and the
six fields of an instruction word (R71). -/

namespace Sys2Proof

/-- Index of a general register `V0` to `VF`. Every 4-bit index is valid (R21, R154). -/
abbrev RegIdx := Fin Config.nregs

/-- The whole instruction set of this hardware (R75, closed by R78). The operand types admit exactly the operand values
the encodings admit, so an instruction cannot be ill-formed (R74, R81). -/
inductive Instr where
  /-- HALT, format Z, word `0x0000`: end the run normally (R105). -/
  | halt
  /-- RETURN, format Z, word `0x00EE`: pop the return address (R110). -/
  | ret
  /-- CALL nnn, format A, word `0x2nnn`: push the return point and go to `nnn` (R112). -/
  | call (nnn : Addr12)
  /-- ADD Vx, Vy, format R, word `0x8xy4`: `x` is destination and first source, `y` the second source (R125). -/
  | add (x y : RegIdx)
  deriving DecidableEq, Repr

/-- The six fields that decoding extracts from a word: four nibbles, and two wider fields that overlap them (R71, conflict
C4 of 90_conflicts.md). `kk` is extracted and used by no instruction of this hardware (R73, R81). -/
structure Fields where
  /-- bits 15 to 12, the opcode class -/
  c : Nibble
  /-- bits 11 to 8, the first register operand index -/
  x : Nibble
  /-- bits 7 to 4, the second register operand index -/
  y : Nibble
  /-- bits 3 to 0, the opcode sub-selector -/
  d : Nibble
  /-- bits 11 to 0, the 12-bit address operand -/
  nnn : Addr12
  /-- bits 7 to 0, the 8-bit immediate operand -/
  kk : Byte
  deriving DecidableEq, Repr

end Sys2Proof
end

