-- ==== Sys2Proof/WellFormed.lean ====
section
/-! DEFINITION. Which words are instructions: the dispatch table of spec 30_encoding.md R75 as mask and match, and the
check that a word is legal. An `Instr` needs no check of its own: its operand types hold exactly the operands the
encodings admit (R74), so what can be ill-formed is a word (R77). The decoder is written from R92 without this table;
that the two agree is stated and proved, not built in. -/

namespace Sys2Proof

/-- One row of the dispatch table (R75). -/
structure TableRow where
  /-- the row's name in spec/opcode_table.json -/
  mnemonic : String
  mask : Word
  pattern : Word
  deriving DecidableEq, Repr

/-- "A word `w` selects a row when `w & mask = match`" (R75). -/
def TableRow.selects (r : TableRow) (w : Word) : Bool := w &&& r.mask == r.pattern

def haltRow : TableRow := ⟨"HALT", 0xFFFF#16, 0x0000#16⟩
def returnRow : TableRow := ⟨"RETURN", 0xFFFF#16, 0x00EE#16⟩
def callRow : TableRow := ⟨"CALL", 0xF000#16, 0x2000#16⟩
def addRow : TableRow := ⟨"ADD", 0xF00F#16, 0x8004#16⟩

/-- The dispatch table in the order of R75; closed (R78). -/
def dispatchTable : List TableRow := [haltRow, returnRow, callRow, addRow]

/-- A word is legal when some row of the table selects it (R77). -/
def wordLegal (w : Word) : Bool := dispatchTable.any (·.selects w)

/-- The row an instruction belongs to. -/
def Instr.row : Instr → TableRow
  | .halt => haltRow
  | .ret => returnRow
  | .call _ => callRow
  | .add _ _ => addRow

end Sys2Proof
end

