-- ==== Sys2Proof/Decode.lean ====
section
/-! DEFINITION. Bytes to instructions and back: the byte order of an instruction word (spec 20_memory.md R53), field
extraction (30_encoding.md R71, R72), dispatch (R75, 40_step_cycle.md R92), and the encodings (R82). -/

namespace Sys2Proof

/-- Why decoding names no instruction. -/
inductive Reject where
  /-- The word matches no row of the dispatch table (R77); executing it raises UnimplementedOpcode (R142). -/
  | unimplementedOpcode (w : Word)
  /-- Fewer than two bytes were given: no word exists. The machine's fetch never produces this (R52). -/
  | truncated
  deriving DecidableEq, Repr

/-- Big-endian: the byte at the lower address is the high-order byte (R53). -/
def wordOfBytes (high low : Byte) : Word := high.setWidth 16 <<< 8 ||| low.setWidth 16

/-- The byte of a word that is stored at the lower address (R53, R172). -/
def highByte (w : Word) : Byte := w.extractLsb' 8 8

/-- The byte of a word that is stored at the higher address (R53, R172). -/
def lowByte (w : Word) : Byte := w.extractLsb' 0 8

/-- Field extraction: pure, total, every field unsigned (R71). -/
def fields (w : Word) : Fields where
  c := w.extractLsb' 12 4
  x := w.extractLsb' 8 4
  y := w.extractLsb' 4 4
  d := w.extractLsb' 0 4
  nnn := w.extractLsb' 0 12
  kk := w.extractLsb' 0 8

/-- The word made of four nibbles, `(c << 12) | (x << 8) | (y << 4) | d` (R72). -/
def assemble (c x y d : Nibble) : Word :=
  c.setWidth 16 <<< 12 ||| x.setWidth 16 <<< 8 ||| y.setWidth 16 <<< 4 ||| d.setWidth 16

/-- A 4-bit field as a register index: used as is, never out of range (R74, R154). -/
def regOfNibble (n : Nibble) : RegIdx := ⟨n.toNat, n.isLt⟩

/-- A register index as a 4-bit field. -/
def nibbleOfReg (r : RegIdx) : Nibble := BitVec.ofNat 4 r.val

/-- The dispatch of R92: tests on the four nibbles only, no state read or written (R80, R95). -/
def decode (w : Word) : Except Reject Instr :=
  let f := fields w
  if f.c = 0x0#4 ∧ f.x = 0x0#4 ∧ f.y = 0x0#4 ∧ f.d = 0x0#4 then .ok .halt
  else if f.c = 0x0#4 ∧ f.x = 0x0#4 ∧ f.y = 0xE#4 ∧ f.d = 0xE#4 then .ok .ret
  else if f.c = 0x2#4 then .ok (.call f.nnn)
  else if f.c = 0x8#4 ∧ f.d = 0x4#4 then .ok (.add (regOfNibble f.x) (regOfNibble f.y))
  else .error (.unimplementedOpcode w)

/-- Decoding from bytes, lowest address first: always two bytes, the rest is returned (R70, R79). -/
def decodeBytes : List Byte → Except Reject (Instr × List Byte)
  | high :: low :: rest =>
    match decode (wordOfBytes high low) with
    | .ok i => .ok (i, rest)
    | .error r => .error r
  | _ => .error .truncated

/-- The word of an instruction (R82's encoding column; formats Z, A and R of R73). -/
def encode : Instr → Word
  | .halt => 0x0000#16
  | .ret => 0x00EE#16
  | .call nnn => 0x2000#16 ||| nnn.setWidth 16
  | .add x y => 0x8004#16 ||| (nibbleOfReg x).setWidth 16 <<< 8 ||| (nibbleOfReg y).setWidth 16 <<< 4

/-- An instruction's bytes as memory holds them, lowest address first (R53, R70). -/
def encodeBytes (i : Instr) : List Byte := [highByte (encode i), lowByte (encode i)]

/-- The instruction word that a table row's bits give: bits at or above `nbits` are 0, and the first (only) word is
bits 15 to 0 (R70). -/
def tableWord (nbits w : Nat) : Word := BitVec.ofNat 16 (w % 2 ^ nbits)

/-- The instruction the decoder reads from an instruction whose bits are `w`, numbered as spec/opcode_table.json numbers
them: its two bytes are laid out big-endian and given to the decoder. -/
def decodeTableWord (nbits w : Nat) : Option Instr :=
  match decodeBytes [highByte (tableWord nbits w), lowByte (tableWord nbits w)] with
  | .ok (i, _) => some i
  | .error _ => none

end Sys2Proof
end

