-- ==== Sys2Proof/Machine/State.lean ====
section
/-! DEFINITION. The architectural state: the seven items of spec 10_state.md R20 and nothing else, its value after reset
(R40), and the model's own stop reasons. -/

namespace Sys2Proof.Machine

/-- The run state (R37); its 2-bit code is `RunState.code` (log entry 2). -/
inductive RunState where
  /-- a step can be taken; the reset value -/
  | running
  /-- terminal: HALT was executed (R105) -/
  | halted
  /-- terminal: a fault was taken (R146) -/
  | faulted
  deriving DecidableEq, Repr

/-- The cause field of the fault record (R38, R141); its 3-bit code is `FaultCause.code` (log entry 2). -/
inductive FaultCause where
  /-- code 0: no fault has been taken -/
  | noFault
  /-- code 1: the fetched word matches no row of the dispatch table (R142) -/
  | unimplementedOpcode
  /-- code 2: CALL with `SP = 16` (R143) -/
  | stackOverflow
  /-- code 3: RETURN with `SP = 0` (R144) -/
  | stackUnderflow
  /-- code 4: fetch at `pc >= MEM_SIZE - 1` (R145) -/
  | outOfBoundsFetch
  deriving DecidableEq, Repr

/-- The fault record FAULT (R38): written once, by the faulting step, and kept until reset (R152). -/
structure FaultRecord where
  cause : FaultCause
  /-- the pc at the start of the faulting step -/
  addr : Word
  /-- the word fetched in the faulting step; absent for OutOfBoundsFetch and while there is no fault -/
  word : Option Word
  deriving DecidableEq, Repr

/-- Memory: (address, byte) cells in canonical form (`Memory.wf`); an unlisted address reads 0x00, its reset value
(R36, R40; log entry 3). -/
abbrev Memory := List Host.Cell

/-- The machine's state: exactly the seven items of R20. -/
structure State where
  /-- the byte memory, addresses 0 to `MEM_SIZE - 1` (R36) -/
  mem : Memory
  /-- the general registers `V0` to `VF`; `v[15]` is also the carry flag (R21, R24) -/
  v : Vector Byte Config.nregs
  /-- the call-stack entries (R32) -/
  stack : Vector Word Config.stackDepth
  /-- SP, the number of live entries, 0 to `STACK_DEPTH` (R33; log entry 1) -/
  sp : Fin (Config.stackDepth + 1)
  /-- the program counter: between steps, the address of the next instruction (R27, R28) -/
  pc : Word
  /-- RUN_STATE (R37) -/
  runState : RunState
  /-- FAULT (R38) -/
  fault : FaultRecord
  deriving DecidableEq, Repr

/-- The fault record after reset: cause 0, addr 0, word absent (R40). -/
def FaultRecord.clear : FaultRecord := ⟨.noFault, 0x0000#16, none⟩

/-- The machine right after reset (R40, R170): everything zero, `pc = ENTRY_POINT`, Running. -/
def State.reset : State where
  mem := []
  v := Vector.replicate Config.nregs 0x00#8
  stack := Vector.replicate Config.stackDepth 0x0000#16
  sp := 0
  pc := Config.entryPoint
  runState := .running
  fault := FaultRecord.clear

/-- The model's fault stops: none. Each of the four faults of R140 is an effect the spec describes, so it is a NEXT
state with `runState = faulted` (log entry 4); no step of this machine stops outside the spec's account (R98), so this
type is empty and `Outcome.fault` is impossible by type. Safe. -/
inductive Fault where
  deriving DecidableEq, Repr

/-- The model's refusals. -/
inductive Refusal where
  /-- An instruction without a meaning yet, by its mnemonic; raised only by an arm of `exec`. No arm raises it: all four
  instructions have their meaning. Safe. -/
  | notModelled (mnemonic : String)
  deriving DecidableEq, Repr

end Sys2Proof.Machine
end

