-- ==== Sys2Proof/Machine/Ops.lean ====
section
/-! DEFINITION. The named operations over memory, registers, the call stack and the program counter, instruction fetch,
and taking a fault (spec 10_state.md, 20_memory.md, 60_exceptions.md). -/

namespace Sys2Proof.Machine

/-! ### Memory (20_memory.md) -/

/-- What an address that no cell lists reads as: the reset value of every byte (R40). -/
def Memory.unlisted : Byte := 0x00#8

/-- The canonical form of memory: addresses strictly rising and inside the address space (R50), and no cell that holds
what an unlisted address reads as. -/
abbrev Memory.wf (m : Memory) : Prop :=
  m.Pairwise (fun p q => p.1 < q.1) ∧ ∀ c ∈ m, c.1 < Config.memSize ∧ c.2 ≠ Memory.unlisted

/-- `mem[a]`, `MemRead(a, 1)` of R10: a pure read (R57). -/
def Memory.read : Memory → Nat → Byte
  | [], _ => Memory.unlisted
  | (k, b) :: rest, a => if k = a then b else Memory.read rest a

/-- `MemRead(a, 2)` of R10: two bytes, big-endian (R53). -/
def Memory.readWord (m : Memory) (a : Nat) : Word := wordOfBytes (m.read a) (m.read (a + 1))

/-- `MemWrite(a, 1, v)` of R10, done only by the host before a run; it keeps the canonical form. -/
def Memory.write : Memory → Nat → Byte → Memory
  | [], a, v => if v = Memory.unlisted then [] else [(a, v)]
  | (k, b) :: rest, a, v =>
    if a < k then (if v = Memory.unlisted then (k, b) :: rest else (a, v) :: (k, b) :: rest)
    else if a = k then (if v = Memory.unlisted then rest else (a, v) :: rest)
    else (k, b) :: Memory.write rest a v

/-! ### General registers (10_state.md R21 to R26) -/

/-- `V[i]`. -/
def State.readReg (s : State) (i : RegIdx) : Byte := s.v[i]

/-- `V[i] <- b`. No register is hard-wired (R22). -/
def State.writeReg (s : State) (i : RegIdx) (b : Byte) : State := { s with v := s.v.set i b }

/-! ### Program counter (10_state.md R27 to R31) -/

/-- `pc <- target`. -/
def State.setPC (s : State) (target : Word) : State := { s with pc := target }

/-- The advance: the pc moves by the instruction width after every successful fetch and before dispatch (40_step_cycle.md
R93). -/
def State.advance (s : State) : State := s.setPC (s.pc + Config.insnBytes)

/-- While an instruction's action runs, the pc already holds the instruction's address plus 2 (R28); this is the
instruction's own address, the `a` of R92. DEDUCED (log entry 5). -/
def State.instrAddr (s : State) : Word := s.pc - Config.insnBytes

/-! ### Call stack (10_state.md R32 to R35) -/

/-- Push of R34: write `stack[SP]`, then increment SP; none when the stack is full, and then nothing is written (R33,
R112). -/
def State.push (s : State) (ret : Word) : Option State :=
  if h : s.sp.val < Config.stackDepth then
    some { s with stack := s.stack.set s.sp.val ret, sp := ⟨s.sp.val + 1, Nat.succ_lt_succ h⟩ }
  else none

/-- Pop of R34: decrement SP and deliver the entry just uncovered, which keeps its content (R35); none when the stack is
empty (R33, R110). -/
def State.pop (s : State) : Option (Word × State) :=
  if h : 0 < s.sp.val then
    some (s.stack[s.sp.val - 1], { s with sp := ⟨s.sp.val - 1, by omega⟩ })
  else none

/-! ### Taking a fault (60_exceptions.md R146) -/

/-- `raise F(addr, word)`: writes FAULT and RUN_STATE and nothing else (R146). -/
def State.raise (s : State) (cause : FaultCause) (addr : Word) (word : Option Word) : State :=
  { s with fault := ⟨cause, addr, word⟩, runState := .faulted }

/-- A fault raised by the action of instruction `i`: the record holds the instruction's address and its word (R143,
R144). The word is `encode i`: an instruction has exactly one word (R81; log entry 5). -/
def State.raiseAt (s : State) (cause : FaultCause) (i : Instr) : State :=
  s.raise cause s.instrAddr (some (encode i))

/-- The normal end of a run: `RUN_STATE <- Halted` (41_halt.md R105). -/
def State.halt (s : State) : State := { s with runState := .halted }

/-! ### Instruction fetch (20_memory.md R52 to R55) -/

/-- The word at the pc; none exactly when `pc + 1` is past the end of memory, compared without wrap (R54). The low bit of
the pc is not tested (R55). -/
def State.fetch (s : State) : Option Word :=
  if s.pc.toNat + 1 > Config.memSize - 1 then none else some (s.mem.readWord s.pc.toNat)

/-! ### The host's bit-level view (10_state.md R33, R37; 60_exceptions.md R141) -/

/-- RUN_STATE as its 2-bit field (R37); 3 never occurs. -/
def RunState.code : RunState → BitVec 2
  | .running => 0
  | .halted => 1
  | .faulted => 2

/-- FAULT.cause as its 3-bit field (R38, R141); 5 to 7 never occur. -/
def FaultCause.code : FaultCause → BitVec 3
  | .noFault => 0
  | .unimplementedOpcode => 1
  | .stackOverflow => 2
  | .stackUnderflow => 3
  | .outOfBoundsFetch => 4

/-- SP as its 5-bit counter (R33); 17 to 31 never occur. -/
def State.spBits (s : State) : BitVec 5 := BitVec.ofNat 5 s.sp.val

/-! ### The loader's stores (70_reset_and_hazards.md R172) -/

/-- `LoadByte(a, b)`: a host store; outside memory there is no byte to store (log entry 9). -/
def State.loadByte (s : State) (a : Nat) (b : Byte) : State :=
  if a < Config.memSize then { s with mem := s.mem.write a b } else s

/-- A 16-bit word loaded at `a`: its high byte at `a`, its low byte at `a + 1` (R172). -/
def State.loadWord (s : State) (a : Nat) (w : Word) : State :=
  (s.loadByte a (highByte w)).loadByte (a + 1) (lowByte w)

end Sys2Proof.Machine
end

