-- ==== Sys2Proof/Machine/Operands.lean ====
section
/-! DEFINITION. The operand forms of spec 30_encoding.md R74: a call target, and a register index as source or
destination. There are no others. -/

namespace Sys2Proof.Machine

/-- The call target: `nnn` zero-extended to the 16 bits of the pc; absolute, not scaled, not checked (R74, R114). -/
def callTarget (nnn : Addr12) : Word := nnn.setWidth 16

/-- The two source operands of ADD, both read before any write (43_add.md R125, R128). -/
def addSources (x y : RegIdx) (s : State) : Byte × Byte := (s.readReg x, s.readReg y)

end Sys2Proof.Machine
end

