-- ==== Sys2Proof/Machine/Flags.lean ====
section
/-! DEFINITION. The arithmetic of spec 43_add.md: the exact sum of two bytes, its low 8 bits, and the carry flag
(R125 to R127; 10_state.md R24, R25). -/

namespace Sys2Proof.Machine

/-- The true sum of two unsigned bytes, 0 to 510; no carry in (R126, R127). -/
def trueSum (a b : Byte) : Nat := a.toNat + b.toNat

/-- The result of ADD: the true sum modulo 256 (R125). -/
def sumByte (a b : Byte) : Byte := BitVec.ofNat 8 (trueSum a b % 256)

/-- The flag result of ADD: 0x01 when the true sum exceeds 255, else 0x00 (R25, R126). -/
def carryByte (a b : Byte) : Byte := if trueSum a b > 255 then 0x01#8 else 0x00#8

/-- The flag write: the carry goes to general register 15, always (R24, R25). -/
def State.writeFlag (s : State) (flag : Byte) : State := s.writeReg Config.flagIndex flag

end Sys2Proof.Machine
end

