-- ==== Sys2Proof/Machine/Add.lean ====
section
/-! DEFINITION. The arithmetic instruction ADD (spec 43_add.md). -/

namespace Sys2Proof.Machine

/-- ADD Vx, Vy: both sources are read, then `V[x]` receives the sum modulo 256, then `V[15]` receives the carry, last
and always, so with `x = 15` the carry wins (R125, R126, R128). It cannot fault (R129). -/
def execAdd (x y : RegIdx) (s : State) : Host.Outcome State Fault Refusal :=
  let (a, b) := addSources x y s
  .next ((s.writeReg x (sumByte a b)).writeFlag (carryByte a b))

end Sys2Proof.Machine
end

