-- ==== Sys2Proof/Machine/Halt.lean ====
section
/-! DEFINITION. The system instruction HALT (spec 41_halt.md). The meaning runs after the fetch and the advance of the
step (40_step_cycle.md R92). -/

namespace Sys2Proof.Machine

/-- HALT: `RUN_STATE <- Halted`; nothing else is written, the pc stays advanced (R105, R106). -/
def execHalt (s : State) : Host.Outcome State Fault Refusal := .next s.halt

end Sys2Proof.Machine
end

