-- ==== Sys2Proof/Machine/ReturnCall.lean ====
section
/-! DEFINITION. The control transfers RETURN and CALL (spec 42_return_call.md). The meanings run after the fetch and the
advance of the step: on entry the pc holds the instruction's address plus 2 (R28). -/

namespace Sys2Proof.Machine

/-- RETURN: pop the most recent return address into the pc; StackUnderflow on an empty stack, with nothing else written
(R110, R144). -/
def execReturn (s : State) : Host.Outcome State Fault Refusal :=
  match s.pop with
  | some (target, s') => .next (s'.setPC target)
  | none => .next (s.raiseAt .stackUnderflow .ret)

/-- CALL nnn: push the advanced pc and go to `nnn`; StackOverflow on a full stack, with nothing else written (R112,
R113, R143). -/
def execCall (nnn : Addr12) (s : State) : Host.Outcome State Fault Refusal :=
  match s.push s.pc with
  | some s' => .next (s'.setPC (callTarget nnn))
  | none => .next (s.raiseAt .stackOverflow (.call nnn))

end Sys2Proof.Machine
end

