-- ==== Sys2Proof/Machine/Cycle.lean ====
section
/-! DEFINITION. One cycle of the run loop: fetch, advance, decode, dispatch (spec 40_step_cycle.md R91 to R95). -/

namespace Sys2Proof.Machine

/-- The cycle of R92 for a Running machine. A fetch past the end of memory faults before the advance (R145); an illegal
word faults after it (R142). -/
def cycle (s : State) : Host.Outcome State Fault Refusal :=
  match s.fetch with
  | none => .next (s.raise .outOfBoundsFetch s.pc none)
  | some w =>
    match decode w with
    | .ok i => exec i s.advance
    | .error _ => .next (s.advance.raise .unimplementedOpcode s.pc (some w))

/-- The step of R90: a cycle while Running; a terminal state is returned unchanged (decision D17). -/
def stepRunning (s : State) : Host.Outcome State Fault Refusal :=
  match s.runState with
  | .running => cycle s
  | .halted => .next s
  | .faulted => .next s

/-- The instruction the next step executes, if it executes one. -/
def State.nextInstr (s : State) : Option Instr :=
  match s.runState, s.fetch with
  | .running, some w => (decode w).toOption
  | _, _ => none

/-- `s` with the instruction word of a table row loaded at the pc, big-endian (R53, R172). -/
def State.placeAtPC (s : State) (nbits w : Nat) : State := s.loadWord s.pc.toNat (tableWord nbits w)

end Sys2Proof.Machine
end

