-- ==== Sys2Proof/Machine/Step.lean ====
section
/-! DEFINITION. The step function of the machine (spec 40_step_cycle.md R90 to R92), and the state in which the next step
fetches a given word. -/

namespace Sys2Proof.Machine

/-- One step: an instruction executed or a fault taken (R91); a terminal state is unchanged (R90). -/
def step (s : State) : Host.Outcome State Fault Refusal := stepRunning s

/-- `s` with the given instruction stored where `step` fetches its next one: at the pc. It stands for the host's load of
a program (70_reset_and_hazards.md R172; log entry 8). -/
def State.withFetchWord (s : State) (nbits w : Nat) : State := s.placeAtPC nbits w

end Sys2Proof.Machine
end

