-- ==== Sys2Proof/Laws/PerInstr.lean ====
section
/-! SUPPORT. Statements made per instruction. `OwnRow`: the word of an instruction is selected by its own row of the
dispatch table and by no other (spec 30_encoding.md R75, R76). -/

namespace Sys2Proof.Laws

/-- The instruction's word matches exactly its own row. -/
def OwnRow.Statement (i : Instr) : Prop := dispatchTable.filter (·.selects (encode i)) = [i.row]

/-- A row whose class nibble differs from the word's does not select it. -/
theorem not_selects_of_class {r : TableRow} {w : Word} (hm : r.mask.extractLsb' 12 4 = 0xF)
    (h : w.extractLsb' 12 4 ≠ r.pattern.extractLsb' 12 4) : r.selects w = false := by
  simp only [TableRow.selects, beq_eq_false_iff_ne, ne_eq]
  intro he
  apply h
  rw [← he]
  have : (w &&& r.mask).extractLsb' 12 4 = w.extractLsb' 12 4 &&& r.mask.extractLsb' 12 4 := by
    ext i hi; simp
  rw [this, hm]
  ext i hi
  have : i = 0 ∨ i = 1 ∨ i = 2 ∨ i = 3 := by omega
  rcases this with rfl | rfl | rfl | rfl <;> simp

theorem OwnRow.halt : OwnRow.Statement .halt := by unfold OwnRow.Statement; decide

theorem OwnRow.ret : OwnRow.Statement .ret := by unfold OwnRow.Statement; decide

theorem OwnRow.call (nnn : Addr12) : OwnRow.Statement (.call nnn) := by
  have hc : (encode (.call nnn)).extractLsb' 12 4 = 2 := by
    ext i hi
    have : i = 0 ∨ i = 1 ∨ i = 2 ∨ i = 3 := by omega
    rcases this with rfl | rfl | rfl | rfl <;> simp [encode]
  have hs : callRow.selects (encode (.call nnn)) = true := by
    simp only [TableRow.selects, callRow, encode, beq_iff_eq]
    ext i hi
    have : i = 12 ∨ i = 13 ∨ i = 14 ∨ i = 15 ∨ i < 12 := by omega
    rcases this with rfl | rfl | rfl | rfl | h <;> simp
    interval_cases i <;> simp
  have h1 : haltRow.selects (encode (.call nnn)) = false := not_selects_of_class (by decide) (by rw [hc]; decide)
  have h2 : returnRow.selects (encode (.call nnn)) = false := not_selects_of_class (by decide) (by rw [hc]; decide)
  have h4 : addRow.selects (encode (.call nnn)) = false := not_selects_of_class (by decide) (by rw [hc]; decide)
  simp [OwnRow.Statement, dispatchTable, h1, h2, hs, h4, Instr.row]

theorem OwnRow.add (x y : RegIdx) : OwnRow.Statement (.add x y) := by
  unfold OwnRow.Statement
  revert x y
  decide

end Sys2Proof.Laws
end

