-- ==== Sys2Proof/Machine/HostPort.lean ====
section
/-! DEFINITION. The host beside the machine (spec 70_reset_and_hazards.md R170 to R178): its moves before launch, the
launch, the run, the read-back and reset. Whether a run has been launched is no item of the machine's state (10_state.md
R20), so it stands here (log entry 8). -/

namespace Sys2Proof.Machine

/-- The machine together with the host's phase. -/
structure Session where
  machine : State
  /-- `Launch()` has been performed since the last reset (R172) -/
  launched : Bool
  deriving DecidableEq, Repr

/-- Everything the host can do to the machine (R170, R172, R177). It has no move that writes `stack`, `SP`, `RUN_STATE`
or `FAULT`, and none that resumes or stops a run (R177, R178). -/
inductive HostMove where
  /-- reset, at any time (R170) -/
  | reset
  /-- `LoadByte(addr, b)` (R172) -/
  | loadByte (addr : Nat) (b : Byte)
  /-- `SetPC(target)` (R172) -/
  | setPC (target : Word)
  /-- `SetReg(i, b)` (R172) -/
  | setReg (i : RegIdx) (b : Byte)
  /-- `Launch()` (R172) -/
  | launch
  deriving DecidableEq, Repr

/-- After reset, before any host operation: the machine does not start by itself (R171). -/
def Session.start : Session := ⟨State.reset, false⟩

/-- The effect of a host move; none where the host has no such move in this phase: the loading operations and the launch
exist only before launch, and LoadByte only inside memory (R172, R174, R177). -/
def Session.move (z : Session) : HostMove → Option Session
  | .reset => some Session.start
  | .loadByte a b =>
    if z.launched = false ∧ a < Config.memSize then some { z with machine := z.machine.loadByte a b } else none
  | .setPC target => if z.launched = false then some { z with machine := z.machine.setPC target } else none
  | .setReg i b => if z.launched = false then some { z with machine := z.machine.writeReg i b } else none
  | .launch => if z.launched = false then some { z with launched := true } else none

/-- A step of a launched, Running machine (R99, R171); none otherwise. -/
def Session.tick (z : Session) : Option Session :=
  if z.launched = true ∧ z.machine.runState = .running then
    match step z.machine with
    | .next t => some { z with machine := t }
    | .fault r => nomatch r
    | .refused _ => none
  else none

/-- The run has ended: RUN_STATE is Halted or Faulted (R175). -/
def State.ended (s : State) : Bool := s.runState != .running

/-- What the host may read at any time after launch: RUN_STATE (R174, R176, R177). -/
def Session.readRunState (z : Session) : Option RunState :=
  if z.launched = true then some z.machine.runState else none

/-- The read-back: all of the state, once the run has ended; reading changes nothing (R176, R177). -/
def Session.readBack (z : Session) : Option State :=
  if z.launched = true ∧ z.machine.ended = true then some z.machine else none

end Sys2Proof.Machine
end

