-- ==== Sys2Proof/Safety.lean ====
section
/-! DEFINITION. What counts as a good state and a safe run, in the terms claims use: the end of a run (spec
70_reset_and_hazards.md R175), the launch premises (R173), the invariants of reachable states (10_state.md R44, R46), and
the termination variant (70_reset_and_hazards.md R189). -/

namespace Sys2Proof.Safety

open Sys2Proof.Machine

/-- The normal end of a run (R175). -/
def EndedWell (s : State) : Prop := s.runState = .halted

/-- The abnormal end of a run; never a final state that satisfies a postcondition (R175). -/
def GoneWrong (s : State) : Prop := s.runState = .faulted

/-! ### Launch premises (R173) -/

def LaunchRunning (s : State) : Prop := s.runState = .running
def LaunchNoFault (s : State) : Prop := s.fault.cause = .noFault ∧ s.fault.word = none
def LaunchStackEmpty (s : State) : Prop := s.sp = 0
def LaunchStackZero (s : State) : Prop := ∀ i : Fin Config.stackDepth, s.stack[i] = 0x0000#16

/-- Memory is any function from addresses to bytes; in this model, any list in canonical form (log entry 3). -/
def LaunchMemory (s : State) : Prop := s.mem.wf

/-- Every register holds some byte, `V[15]` included: the premise allows every value (R45). -/
def LaunchRegs (s : State) : Prop := ∀ i : RegIdx, ∃ b : Byte, s.readReg i = b

/-- The pc holds some 16-bit value, an odd one or one past memory included: the premise allows every value. -/
def LaunchPC (s : State) : Prop := ∃ p : Word, s.pc = p

/-- The premises that every launch state satisfies, together. -/
structure LaunchPremises (s : State) : Prop where
  running : LaunchRunning s
  noFault : LaunchNoFault s
  stackEmpty : LaunchStackEmpty s
  stackZero : LaunchStackZero s
  memory : LaunchMemory s
  regs : LaunchRegs s
  pc : LaunchPC s

/-- The CALL that the next step executes, if it executes one, has an even target. -/
def NextCallEven (s : State) : Prop := ∀ nnn, s.nextInstr = some (.call nnn) → nnn.toNat % 2 = 0

/-- The source's alignment invariant as a premise, which a claim may add to `LaunchPremises` (R173, R46): the pc is even,
and every CALL word that the run from here reaches has an even `nnn`. -/
structure LaunchEven (s : State) : Prop where
  pc : s.pc.toNat % 2 = 0
  calls : ∀ (k : Nat) (t : State), core.run k s = .next t → NextCallEven t

/-! ### Invariants (R44) -/

/-- The fault record and the run state agree (R38; R44 item 2): a cause is recorded exactly in Faulted, and a word
exactly for the causes that are found after a fetch. -/
structure FaultRecordSound (s : State) : Prop where
  cause_iff : s.fault.cause = .noFault ↔ s.runState ≠ .faulted
  word_iff : s.fault.word = none ↔ s.fault.cause = .noFault ∨ s.fault.cause = .outOfBoundsFetch

/-- R44 item 3: every live entry is the address of a CALL plus 2, so between 2 and `MEM_SIZE`. -/
def LiveEntriesInRange (s : State) : Prop :=
  ∀ i : Fin Config.stackDepth, i.val < s.sp.val → 2 ≤ s.stack[i].toNat ∧ s.stack[i].toNat ≤ Config.memSize

/-- The invariant of the machine: canonical memory, a sound fault record, live entries in range (R44). -/
structure Inv (s : State) : Prop where
  memory : s.mem.wf
  record : FaultRecordSound s
  entries : LiveEntriesInRange s

/-- R46: the pc and every live stack entry are even. -/
structure PCEven (s : State) : Prop where
  pc : s.pc.toNat % 2 = 0
  entries : ∀ i : Fin Config.stackDepth, i.val < s.sp.val → s.stack[i].toNat % 2 = 0

/-- The two states differ at most in stack entries at index SP and above, the stale residue that no program can see
(R35, R43). -/
structure SameButStale (s t : State) : Prop where
  mem : s.mem = t.mem
  v : s.v = t.v
  sp : s.sp = t.sp
  pc : s.pc = t.pc
  runState : s.runState = t.runState
  fault : s.fault = t.fault
  live : ∀ i : Fin Config.stackDepth, i.val < s.sp.val → s.stack[i] = t.stack[i]

/-! ### Runs -/

/-- The sessions that resets, host moves and steps lead to. -/
inductive Reachable : Session → Prop where
  | start : Reachable Session.start
  | move (m : HostMove) (z z' : Session) : Reachable z → z.move m = some z' → Reachable z'
  | tick (z z' : Session) : Reachable z → z.tick = some z' → Reachable z'

/-- Component `i` of the tuple `mu` of R189 for a state of height SP: a live entry, then the pc, then a value above every
16-bit number. -/
def variantAt (s : State) (i : Nat) : Nat :=
  if i < s.sp.val then (s.stack.toList.getD i 0).toNat
  else if i = s.sp.val then s.pc.toNat
  else 65536

/-- The 17-component tuple `mu` of R189, compared lexicographically from the left. -/
def variant (s : State) : List Nat := (List.range (Config.stackDepth + 1)).map (variantAt s)

/-- The bound `T(h)` of R189 on the steps spent at heights `h` and above before returning below `h` or ending, as a
function of the free entries `16 - h`: with `N = MEM_SIZE / 2`, `T(16) = N + 1` and `T(h) = N * (1 + T(h + 1)) + 1`. -/
def stepBound : Nat → Nat
  | 0 => Config.memSize / 2 + 1
  | free + 1 => Config.memSize / 2 * (1 + stepBound free) + 1

end Sys2Proof.Safety
end

