-- ==== Sys2Proof/Certificates/Slice0/Obligations.lean ====
section
/-! DEFINITION. The statements for the provers, from the numbered rules of spec/. Where a statement rests on a decision
or an inference that the spec marks as its own, its docstring says so. -/

open Sys2Proof Sys2Proof.Machine Sys2Proof.Safety

/-! ### Encoding (30_encoding.md) -/

/-- A few words of 95_test_vectors.md decode to the instructions they stand for, and near misses are rejected: those of
sections 2.1 and 2.3, and 0x1200, vector X1 of section 2.7. -/
def Obligations.ExampleWordsDecode : Prop :=
  decode 0x0000#16 = .ok .halt ∧ decode 0x00EE#16 = .ok .ret ∧ decode 0x2ABC#16 = .ok (.call 0xABC) ∧
  decode 0x8AB4#16 = .ok (.add 0xA 0xB) ∧ decode 0x8FE4#16 = .ok (.add 0xF 0xE) ∧
  decode 0x00E0#16 = .error (.unimplementedOpcode 0x00E0#16) ∧ decode 0x0E0E#16 = .error (.unimplementedOpcode 0x0E0E#16) ∧
  decode 0x1200#16 = .error (.unimplementedOpcode 0x1200#16) ∧ decode 0x8015#16 = .error (.unimplementedOpcode 0x8015#16)

/-- Decoding an instruction's word, or its bytes followed by anything, gives the instruction back, for every operand
value (R73, R74, R81, R82: the spec's own formats and encoding column, decision D15). -/
def Obligations.DecodeEncodeRoundTrip : Prop :=
  ∀ i : Instr, decode (encode i) = .ok i ∧
    ∀ rest : List Byte, decodeBytes (encodeBytes i ++ rest) = .ok (i, rest)

/-- A decoded word has every bit in its instruction: encoding gives the word back, so an instruction has exactly one
word (the spec's own inference, R81; the model's fault record rests on it, log entry 5). -/
def Obligations.DecodedWordIsItsEncoding : Prop :=
  ∀ (w : Word) (i : Instr), decode w = .ok i → encode i = w

/-- R72: reassembling the four nibbles gives the word; decoding an assembled word gives the four nibbles; `nnn` and `kk`
carry nothing the nibbles do not. -/
def Obligations.ReassemblyInvertsFields : Prop :=
  (∀ w : Word, assemble (fields w).c (fields w).x (fields w).y (fields w).d = w) ∧
  (∀ c x y d : Nibble, (fields (assemble c x y d)).c = c ∧ (fields (assemble c x y d)).x = x ∧
    (fields (assemble c x y d)).y = y ∧ (fields (assemble c x y d)).d = d) ∧
  (∀ w : Word,
    (fields w).nnn.toNat = (fields w).x.toNat * 256 + (fields w).y.toNat * 16 + (fields w).d.toNat ∧
    (fields w).kk.toNat = (fields w).y.toNat * 16 + (fields w).d.toNat)

/-- R75: the dispatch table by mask and match. A word that a row selects decodes to that row's instruction with the
operands `nnn = w mod 4096`, `x = (w / 256) mod 16`, `y = (w / 16) mod 16`; a word that no row selects is rejected under
its own bits. -/
def Obligations.DecoderFollowsDispatchTable : Prop :=
  ∀ w : Word,
    (haltRow.selects w = true → decode w = .ok .halt) ∧
    (returnRow.selects w = true → decode w = .ok .ret) ∧
    (callRow.selects w = true → ∃ nnn : Addr12, nnn.toNat = w.toNat % 4096 ∧ decode w = .ok (.call nnn)) ∧
    (addRow.selects w = true → ∃ x y : RegIdx, x.val = w.toNat / 256 % 16 ∧ y.val = w.toNat / 16 % 16 ∧
      decode w = .ok (.add x y)) ∧
    (wordLegal w = false → decode w = .error (.unimplementedOpcode w))

/-- No word is selected by two rows, and exactly 4354 of the 65536 words are legal (the spec's own inference, R76). -/
def Obligations.RowsDisjointAndCounted : Prop :=
  dispatchTable.Pairwise (fun r q => ∀ w : Word, ¬ (r.selects w = true ∧ q.selects w = true)) ∧
  ((List.range 65536).filter fun n => wordLegal (BitVec.ofNat 16 n)).length = 4354

/-! ### Fetch and the step (20_memory.md, 40_step_cycle.md) -/

/-- R53: the fetched word has the byte at the pc as its high byte, so as `c` and `x`, and the next byte as its low byte, so
as `y`, `d` and `kk`; at every pc the fetch accepts. -/
def Obligations.FetchIsBigEndian : Prop :=
  ∀ s : State, s.pc.toNat ≤ 4094 → ∃ w, s.fetch = some w ∧
    w.toNat = (s.mem.read s.pc.toNat).toNat * 256 + (s.mem.read (s.pc.toNat + 1)).toNat ∧
    (fields w).c.toNat = (s.mem.read s.pc.toNat).toNat / 16 ∧
    (fields w).x.toNat = (s.mem.read s.pc.toNat).toNat % 16 ∧
    (fields w).y.toNat = (s.mem.read (s.pc.toNat + 1)).toNat / 16 ∧
    (fields w).d.toNat = (s.mem.read (s.pc.toNat + 1)).toNat % 16 ∧
    (fields w).kk = s.mem.read (s.pc.toNat + 1)

/-- The fetch fails exactly when the pc is 0xFFF or more, with no wrap at 0xFFFF (the spec's decision D6, R54), so an odd
pc below that is accepted (decision D5, R55; log entry 13), and the
advance after a successful fetch never wraps (the spec's own inference, R31). -/
def Obligations.FetchBoundAndAdvance : Prop :=
  ∀ s : State, (s.fetch = none ↔ 0xFFF ≤ s.pc.toNat) ∧
    ∀ w, s.fetch = some w → s.advance.pc.toNat = s.pc.toNat + 2 ∧ s.advance.pc.toNat ≤ Config.memSize

/-- When the word at the pc of a Running machine decodes to `i`, the step is `exec i` on the state whose pc has been
advanced by 2 and which is otherwise the same (R92's order). -/
def Obligations.StepRunsDecodedInstruction : Prop :=
  ∀ (s : State) (w : Word) (i : Instr), s.runState = .running → s.fetch = some w → decode w = .ok i →
    step s = exec i { s with pc := s.pc + 2#16 }

/-- The pc after each step of a Running machine: the table of R29, the spec's own inference. -/
def Obligations.PcAfterEachStep : Prop :=
  ∀ s : State, s.runState = .running → ∃ t, step s = .next t ∧
    t.pc = match s.fetch with
      | none => s.pc
      | some w => match decode w with
        | .ok .halt => s.pc + 2#16
        | .ok .ret => if h : s.sp.val = 0 then s.pc + 2#16 else s.stack[s.sp.val - 1]
        | .ok (.call nnn) => if s.sp.val = 16 then s.pc + 2#16 else nnn.setWidth 16
        | .ok (.add _ _) => s.pc + 2#16
        | .error _ => s.pc + 2#16

/-- R94: the pc is written by exactly three things. An action that changes the pc is a RETURN's or a CALL's; besides that
there is the advance by 2, in every step whose fetch succeeds, an illegal word's too, and in no other. -/
def Obligations.PcHasThreeWriters : Prop :=
  (∀ (i : Instr) (s t : State), exec i s = .next t → t.pc ≠ s.pc → i = .ret ∨ ∃ nnn, i = .call nnn) ∧
  (∀ (s : State) (w : Word) (i : Instr), s.runState = .running → s.fetch = some w → decode w = .ok i →
    step s = exec i { s with pc := s.pc + 2#16 }) ∧
  (∀ (s t : State) (w : Word), s.runState = .running → s.fetch = some w → wordLegal w = false → step s = .next t →
    t.pc = s.pc + 2#16) ∧
  (∀ s t : State, s.runState = .running → s.fetch = none → step s = .next t → t.pc = s.pc)

/-- Every state has a next state; no step faults or refuses in the model's sense (the spec's own inference, R98). -/
def Obligations.EveryStateSteps : Prop := ∀ s : State, ∃ t, step s = .next t

/-- A terminal state is left unchanged by a step, the fault record included (the spec's decision D17, R90, R152). -/
def Obligations.TerminalStatesAbsorb : Prop :=
  ∀ s : State, s.runState ≠ .running → step s = .next s

/-- R100: the terminal conditions are exactly these. A step of a Running machine ends in Halted exactly on the word 0x0000;
in Faulted exactly on an out-of-bounds fetch, an unrecognized word, a CALL on a full stack or a RETURN on an empty one. -/
def Obligations.TerminalConditionsExact : Prop :=
  ∀ s : State, s.runState = .running → ∃ t, step s = .next t ∧
    (t.runState = .halted ↔ s.fetch = some 0x0000#16) ∧
    (t.runState = .faulted ↔
      s.fetch = none ∨ (∃ w, s.fetch = some w ∧ wordLegal w = false) ∨
      (∃ nnn, s.nextInstr = some (.call nnn) ∧ s.sp.val = 16) ∨ (s.nextInstr = some .ret ∧ s.sp.val = 0))

/-! ### HALT (41_halt.md) -/

/-- R105: HALT, the word 0x0000, writes RUN_STATE only; the step that executes it has also advanced the pc. It always
completes. -/
def Obligations.HaltEndsRunNormally : Prop :=
  ∀ s : State, exec .halt s = .next { s with runState := .halted } ∧
    (s.runState = .running → s.fetch = some 0x0000#16 →
      step s = .next { s with runState := .halted, pc := s.pc + 2#16 })

/-! ### RETURN and CALL (42_return_call.md) -/

/-- R110: RETURN, the word 0x00EE, with a stack that is not empty decrements SP and sets the pc to the entry uncovered, and
writes nothing else; on an empty stack it raises StackUnderflow with its own address and word, SP, the stack and the
advanced pc staying as they are. -/
def Obligations.ReturnPopsOrUnderflows : Prop :=
  ∀ s : State,
    (∀ _ : s.sp.val ≠ 0, exec .ret s =
      .next { s with sp := ⟨s.sp.val - 1, by omega⟩, pc := s.stack[s.sp.val - 1]'(by omega) }) ∧
    (s.sp.val = 0 → exec .ret s =
      .next { s with runState := .faulted, fault := ⟨.stackUnderflow, s.pc - 2#16, some 0x00EE#16⟩ })

/-- CALL on a stack that is not full pushes the pc it finds (the return point), increments SP and goes to `nnn`
zero-extended (the spec's decision D22); it writes nothing else, so the other fifteen entries stay. -/
def Obligations.CallPushesAndRedirects : Prop :=
  ∀ (nnn : Addr12) (s : State) (h : s.sp.val < 16),
    let entries := s.stack.set s.sp.val s.pc h
    let height : Fin 17 := ⟨s.sp.val + 1, Nat.succ_lt_succ h⟩
    exec (.call nnn) s = .next { s with stack := entries, sp := height, pc := nnn.setWidth 16 }

/-- A step that executes a CALL below height 16 saves the address of the CALL plus 2, stored whole (R113), in the entry at
index SP, which becomes the newest live one (the spec's decision D3, R34; log entry 11); SP grows by 1 and the other
fifteen entries stay (R112). -/
def Obligations.CallSavesAddressPlusTwo : Prop :=
  ∀ (s : State) (nnn : Addr12) (h : s.sp.val < 16), s.nextInstr = some (.call nnn) →
    ∃ t, step s = .next t ∧ t.sp.val = s.sp.val + 1 ∧ t.stack[s.sp.val] = s.pc + 2#16 ∧
      ∀ i : Fin 16, i.val ≠ s.sp.val → t.stack[i] = s.stack[i]

/-- R143: a CALL fetched from `a` on a full stack records (StackOverflow, `a`, its word); SP stays 16, the entries are
unchanged, the pc is `a + 2` and nothing else changes. -/
def Obligations.CallOnFullStackOverflows : Prop :=
  ∀ (s : State) (w : Word) (nnn : Addr12), s.runState = .running → s.fetch = some w → decode w = .ok (.call nnn) →
    s.sp.val = 16 →
    step s = .next { s with runState := .faulted, fault := ⟨.stackOverflow, s.pc, some w⟩, pc := s.pc + 2#16 }

/-- R144: a RETURN fetched from `a` on an empty stack records (StackUnderflow, `a`, 0x00EE); SP stays 0, the entries are
unchanged, the pc is `a + 2` and nothing else changes. -/
def Obligations.ReturnOnEmptyStackUnderflows : Prop :=
  ∀ s : State, s.runState = .running → s.fetch = some 0x00EE#16 → s.sp.val = 0 →
    step s = .next { s with runState := .faulted, fault := ⟨.stackUnderflow, s.pc, some 0x00EE#16⟩, pc := s.pc + 2#16 }

/-- The pairing law (the spec's own inference, R115). A CALL at address `A` and height `h` that succeeds is followed by
some number of steps; at the first later state that is about to execute a RETURN at height `h + 1`, that RETURN gives
`pc = A + 2` and `SP = h`. -/
def Obligations.CallReturnPairing : Prop :=
  ∀ (s c t : State) (nnn : Addr12) (k : Nat), s.nextInstr = some (.call nnn) → s.sp.val < 16 → step s = .next c →
    core.run k c = .next t →
    (∀ j u, j < k → core.run j c = .next u → ¬ (u.nextInstr = some .ret ∧ u.sp.val = s.sp.val + 1)) →
    t.nextInstr = some .ret → t.sp.val = s.sp.val + 1 →
    ∃ u, step t = .next u ∧ u.pc = s.pc + 2#16 ∧ u.sp = s.sp

/-! ### ADD (43_add.md, 10_state.md section 3) -/

/-- R125: ADD reads both sources, writes the sum modulo 256 to register `x`, then the carry to register 15, and nothing
else; every pair of registers. It always completes. -/
def Obligations.AddWritesSumThenCarry : Prop :=
  ∀ (x y : RegIdx) (s : State),
    let sum := s.v[x].toNat + s.v[y].toNat
    let flag : Byte := if sum > 255 then 0x01#8 else 0x00#8
    exec (.add x y) s = .next { s with v := (s.v.set x.val (BitVec.ofNat 8 (sum % 256))).set 15 flag }

/-- R126: after every ADD the flag is 1 if the true sum of the two source bytes exceeded 255 and 0 otherwise, whatever it
was before; and for a destination other than 15 the destination holds `a + b`, or `(a + b) mod 256` with the flag 1. -/
def Obligations.FlagIsCarryOfEveryAdd : Prop :=
  ∀ (x y : RegIdx) (s : State), ∃ t, exec (.add x y) s = .next t ∧
    (s.v[x].toNat + s.v[y].toNat > 255 → t.v[15] = 0x01#8 ∧
      (x ≠ 15 → t.v[x].toNat = (s.v[x].toNat + s.v[y].toNat) % 256)) ∧
    (s.v[x].toNat + s.v[y].toNat ≤ 255 → t.v[15] = 0x00#8 ∧
      (x ≠ 15 → t.v[x].toNat = s.v[x].toNat + s.v[y].toNat))

/-- With register 15 as ADD's destination the carry wins and the sum is lost, `y = 15` included; with 15 as the second
source only, the old flag is the operand (the spec's decisions D12 and D13, R128). -/
def Obligations.AddIntoFlagKeepsCarry : Prop :=
  ∀ (y : RegIdx) (s : State),
    (∃ t, exec (.add 15 y) s = .next t ∧
      t.v[15].toNat = (s.v[15].toNat + s.v[y].toNat) / 256 ∧ ∀ i : RegIdx, i ≠ 15 → t.v[i] = s.v[i]) ∧
    (∀ x : RegIdx, x ≠ 15 → ∃ t, exec (.add x 15) s = .next t ∧
      t.v[x].toNat = (s.v[x].toNat + s.v[15].toNat) % 256 ∧
      t.v[15].toNat = (s.v[x].toNat + s.v[15].toNat) / 256)

/-- R129: overflow is not a fault. A step that executes an ADD leaves the machine Running with FAULT as it was. -/
def Obligations.AddNeverFaults : Prop :=
  ∀ (s : State) (x y : RegIdx), s.nextInstr = some (.add x y) →
    ∃ t, step s = .next t ∧ t.runState = .running ∧ t.fault = s.fault

/-- The arithmetic of ADD on bytes: sum and carry together are the true sum of the unsigned bytes, and the same sum bits
are the two's complement sum; the carry is the unsigned one (43_add.md, the integer arithmetic laws). -/
def Obligations.AddArithmeticLaws : Prop :=
  ∀ a b : Byte,
    256 * (carryByte a b).toNat + (sumByte a b).toNat = a.toNat + b.toNat ∧
    (sumByte a b).toInt = (a.toInt + b.toInt).bmod 256 ∧ sumByte a b = sumByte b a ∧ carryByte a b = carryByte b a

/-- The flag register, once 0 or 1, is 0 or 1 after every step, and an ADD makes it so from any value (the spec's own
inference, R44 item 5). -/
def Obligations.FlagStaysZeroOrOne : Prop :=
  ∀ s t : State, step s = .next t →
    s.v[15] = 0#8 ∨ s.v[15] = 1#8 ∨ (∃ x y, s.nextInstr = some (.add x y)) → t.v[15] = 0#8 ∨ t.v[15] = 1#8

/-! ### Frames -/

/-- Frame of ADD: every register but `x` and 15, the stack, SP, the pc beyond the step's advance, RUN_STATE, FAULT and
every byte of memory are unchanged. -/
def Obligations.AddFrame : Prop :=
  ∀ (x y : RegIdx) (s t : State), exec (.add x y) s = .next t →
    (∀ i : RegIdx, i ≠ x → i ≠ 15 → t.v[i] = s.v[i]) ∧ t.stack = s.stack ∧ t.sp = s.sp ∧ t.pc = s.pc ∧
    t.runState = s.runState ∧ t.fault = s.fault ∧ ∀ a : Nat, t.mem.read a = s.mem.read a

/-- Frame of HALT, RETURN and CALL: every register, so the flag too, and every byte of memory are unchanged; HALT and
RETURN write no stack entry and CALL none but the one at index SP; HALT leaves SP, the pc and FAULT; RETURN and CALL leave
RUN_STATE and FAULT unless they raise their fault, and then they leave the stack, SP and the pc. -/
def Obligations.HaltReturnCallFrame : Prop :=
  ∀ (i : Instr) (s t : State), (∀ x y, i ≠ .add x y) → exec i s = .next t →
    t.v = s.v ∧ (∀ a : Nat, t.mem.read a = s.mem.read a) ∧
    (∀ j : Fin 16, t.stack[j] ≠ s.stack[j] → j.val = s.sp.val ∧ ∃ nnn, i = .call nnn) ∧
    (i = .halt → t.sp = s.sp ∧ t.pc = s.pc ∧ t.fault = s.fault) ∧
    (i ≠ .halt → (t.runState = s.runState ∧ t.fault = s.fault) ∨
      (t.runState = .faulted ∧ t.stack = s.stack ∧ t.sp = s.sp ∧ t.pc = s.pc))

/-- Only ADD touches the register file (R23). It writes `x` and 15 and no other register, and what it writes depends on
registers `x` and `y` alone; HALT, RETURN and CALL neither read nor write a register: with another register file they do the
same. -/
def Obligations.OnlyAddTouchesRegisters : Prop :=
  (∀ (i : Instr) (s t : State) (v' : Vector Byte 16), (∀ x y, i ≠ .add x y) → exec i s = .next t →
    t.v = s.v ∧ exec i { s with v := v' } = .next { t with v := v' }) ∧
  (∀ (x y : RegIdx) (s s' t t' : State), exec (.add x y) s = .next t → exec (.add x y) s' = .next t' →
    s.v[x] = s'.v[x] → s.v[y] = s'.v[y] → t.v[x] = t'.v[x] ∧ t.v[15] = t'.v[15]) ∧
  (∀ (x y : RegIdx) (s t : State), exec (.add x y) s = .next t → ∀ i : RegIdx, i ≠ x → i ≠ 15 → t.v[i] = s.v[i])

/-- No step changes a byte of memory: memory during a run is constant (the spec's own inference, R51, R62; R44 item 6). -/
def Obligations.MemoryNeverChanges : Prop := ∀ s t : State, step s = .next t → t.mem = s.mem

/-- A step changes the stack or SP only by executing a CALL or a RETURN, and SP by at most one. -/
def Obligations.OnlyCallAndReturnTouchStack : Prop :=
  ∀ s t : State, step s = .next t →
    (t.stack ≠ s.stack → ∃ nnn, s.nextInstr = some (.call nnn)) ∧
    (t.sp ≠ s.sp → (s.nextInstr = some .ret ∧ t.sp.val + 1 = s.sp.val) ∨
      ∃ nnn, s.nextInstr = some (.call nnn) ∧ t.sp.val = s.sp.val + 1)

/-! ### Faults (60_exceptions.md) -/

/-- Taking a fault writes FAULT and RUN_STATE and nothing else (R146); a step from there answers the same state (the spec's
decision D17, R90; log entry 10). -/
def Obligations.RaiseWritesFaultAndRunState : Prop :=
  ∀ (s : State) (cause : FaultCause) (addr : Word) (word : Option Word),
    s.raise cause addr word = { s with fault := ⟨cause, addr, word⟩, runState := .faulted } ∧
    step (s.raise cause addr word) = .next (s.raise cause addr word)

/-- A word that no row selects records (UnimplementedOpcode, its address, the word) with the pc advanced, and changes
nothing else (R142 with the spec's decision D9). -/
def Obligations.IllegalWordFaults : Prop :=
  ∀ (s : State) (w : Word), s.runState = .running → s.fetch = some w → wordLegal w = false →
    step s = .next { s with runState := .faulted, fault := ⟨.unimplementedOpcode, s.pc, some w⟩, pc := s.pc + 2#16 }

/-- A pc of 0xFFF or more records (OutOfBoundsFetch, the pc, absent), the pc not advanced, and changes nothing else (R145
with the spec's decisions D6 and D10). -/
def Obligations.OutOfBoundsFetchFaults : Prop :=
  ∀ s : State, s.runState = .running → 0xFFF ≤ s.pc.toNat →
    step s = .next { s with runState := .faulted, fault := ⟨.outOfBoundsFetch, s.pc, none⟩ }

/-- The state after a fault (the table of R147, with the spec's decisions D9 and D11): registers, stack, SP and memory as
before the step; FAULT.addr is the pc before the step; the pc is advanced, and the fetched word recorded, for every cause
but OutOfBoundsFetch. -/
def Obligations.FaultsArePrecise : Prop :=
  ∀ s t : State, s.runState = .running → step s = .next t → t.runState = .faulted →
    t.v = s.v ∧ t.stack = s.stack ∧ t.sp = s.sp ∧ t.mem = s.mem ∧ t.fault.addr = s.pc ∧ t.fault.word = s.fetch ∧
    ((t.fault.cause = .outOfBoundsFetch ∧ t.pc = s.pc) ∨
      (t.fault.cause ≠ .outOfBoundsFetch ∧ t.fault.cause ≠ .noFault ∧ t.pc = s.pc + 2#16))

/-- Which cause a step records, from a machine with no fault recorded: each exactly on its condition (the table of R141,
whose codes are the spec's decision D8). -/
def Obligations.FaultCausesExact : Prop :=
  ∀ s : State, s.runState = .running → s.fault.cause = .noFault → ∃ t, step s = .next t ∧
    (t.fault.cause = .unimplementedOpcode ↔ ∃ w, s.fetch = some w ∧ wordLegal w = false) ∧
    (t.fault.cause = .stackOverflow ↔ ∃ nnn, s.nextInstr = some (.call nnn) ∧ s.sp.val = 16) ∧
    (t.fault.cause = .stackUnderflow ↔ s.nextInstr = some .ret ∧ s.sp.val = 0) ∧
    (t.fault.cause = .outOfBoundsFetch ↔ 0xFFF ≤ s.pc.toNat)

/-- The numbers of RUN_STATE, FAULT.cause and SP: the codes 0 to 2 and 0 to 4 (the spec's decisions D7 and D8), and the
5-bit SP is the height (decision D2). -/
def Obligations.NumericCodes : Prop :=
  RunState.running.code = 0 ∧ RunState.halted.code = 1 ∧ RunState.faulted.code = 2 ∧
  FaultCause.noFault.code = 0 ∧ FaultCause.unimplementedOpcode.code = 1 ∧ FaultCause.stackOverflow.code = 2 ∧
  FaultCause.stackUnderflow.code = 3 ∧ FaultCause.outOfBoundsFetch.code = 4 ∧
  ∀ s : State, s.spBits.toNat = s.sp.val ∧ s.spBits.toNat ≤ 16

/-! ### Reset, launch and the host (70_reset_and_hazards.md) -/

/-- Reset: every memory byte, register and stack entry 0, SP 0, pc 0, Running, FAULT clear (R40, R170; FAULT is the spec's
decision D23, reset as an action decision D18); so a machine run with nothing loaded halts at once with pc 2. -/
def Obligations.ResetState : Prop :=
  (∀ a : Nat, State.reset.mem.read a = 0#8) ∧ (∀ i : RegIdx, State.reset.v[i] = 0#8) ∧
  (∀ i : Fin 16, State.reset.stack[i] = 0#16) ∧ State.reset.sp = 0 ∧ State.reset.pc = 0#16 ∧
  State.reset.runState = .running ∧ State.reset.fault = ⟨.noFault, 0#16, none⟩ ∧
  step State.reset = .next { State.reset with runState := .halted, pc := 2#16 }

/-- The machine's invariant holds at reset. -/
def Obligations.ResetMeetsInvariant : Prop := Inv State.reset

/-- What a LoadByte before launch does: the byte at the address, and no other byte and nothing else of the machine,
changes (R172, the spec's decision D18); memory is taken in its canonical form (log entry 3). -/
def Obligations.LoadByteStoresOneByte : Prop :=
  ∀ (z : Session) (a : Nat) (b : Byte), z.launched = false → a < 4096 → z.machine.mem.wf →
    ∃ z', z.move (.loadByte a b) = some z' ∧ z'.launched = false ∧ z'.machine.mem.wf ∧
      z'.machine.mem.read a = b ∧ (∀ a', a' ≠ a → z'.machine.mem.read a' = z.machine.mem.read a') ∧
      z'.machine = { z.machine with mem := z'.machine.mem }

/-- What SetPC, SetReg and Launch do before launch: SetPC writes the pc, SetReg the named register, Launch nothing of the
machine; after Launch the run proceeds (R172, the spec's decision D18; that the launch stands beside the machine is log
entry 8). -/
def Obligations.PresetAndLaunchMoves : Prop :=
  ∀ z : Session, z.launched = false →
    (∀ p : Word, z.move (.setPC p) = some ⟨{ z.machine with pc := p }, false⟩) ∧
    (∀ (i : RegIdx) (b : Byte), z.move (.setReg i b) = some ⟨{ z.machine with v := z.machine.v.set i.val b }, false⟩) ∧
    z.move .launch = some ⟨z.machine, true⟩

/-- Before launch no step is taken although RUN_STATE is Running (R171), and nothing can be read (log entry 17). After
launch RUN_STATE can be read at any time (R174); while the machine is Running the session takes the machine's step, and
once the run has ended none (R99); the read-back exists exactly then and is the whole state (R176, R177, the spec's
decision D18). -/
def Obligations.StepsAndReadBackByPhase : Prop :=
  ∀ z : Session,
    (z.launched = false → z.tick = none ∧ z.readRunState = none ∧ z.readBack = none) ∧
    (z.launched = true → z.readRunState = some z.machine.runState) ∧
    (∀ t, z.launched = true → z.machine.runState = .running → step z.machine = .next t → z.tick = some ⟨t, true⟩) ∧
    (z.machine.runState ≠ .running → z.tick = none) ∧
    ∀ r : State, z.readBack = some r ↔ z.launched = true ∧ z.machine.runState ≠ .running ∧ r = z.machine

/-- Memory at launch is any function from 0 to 4095 to bytes (R173, R36), and it is one state: every image is the content
of exactly one memory in canonical form (the model's representation, log entry 3). -/
def Obligations.EveryImageIsOneMemory : Prop :=
  ∀ image : Fin 4096 → Byte, ∃ m : Memory, (m.wf ∧ ∀ a : Fin 4096, m.read a.val = image a) ∧
    ∀ m' : Memory, m'.wf → (∀ a : Fin 4096, m'.read a.val = image a) → m' = m

/-- Every state the host can launch from meets the launch premises (the spec's own inference, R173). -/
def Obligations.HostReachesOnlyLaunchStates : Prop :=
  ∀ z : Session, Reachable z → z.launched = false → LaunchPremises z.machine

/-- Every state that meets the launch premises and has FAULT.addr at its reset value, which no premise names and the host
cannot write, can be prepared by the host: any memory, any registers, any pc (the spec's own inference, R173). -/
def Obligations.HostReachesEveryLaunchState : Prop :=
  ∀ s : State, LaunchPremises s → s.fault.addr = 0#16 → Reachable ⟨s, false⟩

/-- After launch the host's only move is reset, which gives the reset state before launch (R174, R177, R178; the spec's
decisions D17 and D18). -/
def Obligations.OnlyResetAfterLaunch : Prop :=
  ∀ (z z' : Session) (m : HostMove), z.launched = true → (z.move m = some z' ↔ m = .reset ∧ z' = ⟨State.reset, false⟩)

/-! ### Invariants and whole-machine laws (10_state.md R43 to R46, 70_reset_and_hazards.md R188, R189) -/

/-- Every step keeps the invariant: canonical memory, a fault recorded exactly in Faulted and a word exactly for the causes
found after a fetch, live stack entries between 2 and MEM_SIZE (the spec's own inference, R44). -/
def Obligations.StepKeepsInvariant : Prop := ∀ s t : State, Inv s → step s = .next t → Inv t

/-- The invariant holds in every session the host and the machine can reach (the spec's own inference, R44). -/
def Obligations.ReachableMeetsInvariant : Prop := ∀ z : Session, Reachable z → Inv z.machine

/-- After a step that takes no fault the pc is at most MEM_SIZE (the spec's own inference, R44 item 4). -/
def Obligations.PcBoundAfterStep : Prop :=
  ∀ s t : State, Inv s → s.runState = .running → step s = .next t → t.runState ≠ .faulted →
    t.pc.toNat ≤ Config.memSize

/-- Evenness of the pc and of the live stack entries is kept by every step whose CALL, if it executes one, has an even
target (the spec's own inference, R46). -/
def Obligations.EvenProgramsStayEven : Prop :=
  ∀ s t : State, PCEven s → NextCallEven s → step s = .next t → PCEven t

/-- From a launch state that meets the optional premise LaunchEven too, the pc and every live stack entry are even after
every number of steps (the spec's own inference, R46, R173). -/
def Obligations.EvenLaunchKeepsPcEven : Prop :=
  ∀ (s t : State) (k : Nat), LaunchPremises s → LaunchEven s → core.run k s = .next t → PCEven t

/-- The pairing law as an invariant: a live entry `e` at index `h` stays live and stays `e` in every step that is not the
RETURN at height `h + 1` (the spec's own inference, R115: between a CALL and its RETURN the entry is not written). -/
def Obligations.LiveEntryKeptUntilItsReturn : Prop :=
  ∀ (s t : State) (h : Fin 16) (e : Word), (h.val < s.sp.val ∧ s.stack[h] = e) →
    ¬ (s.nextInstr = some .ret ∧ s.sp.val = h.val + 1) → step s = .next t → h.val < t.sp.val ∧ t.stack[h] = e

/-- Stack entries at index SP and above cannot be seen by a program: two states that differ only there step to states that
differ only there (the spec's decisions D3 and D4, R34, R35, R43). -/
def Obligations.StaleEntriesUnobservable : Prop :=
  ∀ s t s' : State, SameButStale s t → step s = .next s' → ∃ t', step t = .next t' ∧ SameButStale s' t'

/-- Every step that leaves the machine Running makes the tuple of R189 larger in the lexicographic order (the spec's own
inference). -/
def Obligations.VariantGrowsWhileRunning : Prop :=
  ∀ s t : State, s.runState = .running → step s = .next t → t.runState = .running → variant s < variant t

/-- Every run ends: from every state, after finitely many steps the machine is Halted or Faulted (the spec's own inference,
R188). -/
def Obligations.EveryRunEnds : Prop :=
  ∀ s : State, ∃ (n : Nat) (t : State), core.run n s = .next t ∧ (EndedWell t ∨ GoneWrong t)

/-- The count of R189 (the spec's own inference): from any height the machine ends, or executes the RETURN that goes below
it, within `T(h)` steps; so a run launched with an empty stack ends within `T(0)` steps. -/
def Obligations.RunLengthIsBounded : Prop :=
  (∀ s : State, s.runState = .running → ∃ (n : Nat) (t : State),
    n ≤ stepBound (16 - s.sp.val) ∧ core.run n s = .next t ∧
    (t.runState ≠ .running ∨ (t.sp.val + 1 = s.sp.val ∧ t.pc = s.stack.toList.getD (s.sp.val - 1) 0#16))) ∧
  (∀ s : State, s.sp.val = 0 → ∃ (n : Nat) (t : State),
    n ≤ stepBound 16 ∧ core.run n s = .next t ∧ (EndedWell t ∨ GoneWrong t))
end

