-- ==== Sys2Proof/Laws/Config.lean ====
section
/-! SUPPORT. The parameters as numbers, for arithmetic: `omega` does not look inside a name. -/

namespace Sys2Proof

theorem Config.memSize_eq : Config.memSize = 4096 := rfl
theorem Config.stackDepth_eq : Config.stackDepth = 16 := rfl
theorem Config.nregs_eq : Config.nregs = 16 := rfl
theorem Config.insnBytes_eq : Config.insnBytes = 2#16 := rfl
theorem Config.entryPoint_eq : Config.entryPoint = 0#16 := rfl

end Sys2Proof
end

