-- ==== Sys2Proof/Laws/Decode.lean ====
section
/-! SUPPORT. What decoding and encoding can do, for the proofs to cite. -/

namespace Sys2Proof

theorem nibbleOfReg_regOfNibble (n : Nibble) : nibbleOfReg (regOfNibble n) = n := by
  simp [nibbleOfReg, regOfNibble]

theorem regOfNibble_nibbleOfReg (r : RegIdx) : regOfNibble (nibbleOfReg r) = r := by
  have := r.isLt
  have := Config.nregs_eq
  apply Fin.ext
  simp only [regOfNibble, nibbleOfReg, BitVec.toNat_ofNat]
  omega

/-- What a successful decoding can be, with the nibbles that select it. -/
theorem decode_ok_cases {w : Word} {i : Instr} (h : decode w = .ok i) :
    (i = .halt ∧ (fields w).c = 0#4 ∧ (fields w).x = 0#4 ∧ (fields w).y = 0#4 ∧ (fields w).d = 0#4) ∨
    (i = .ret ∧ (fields w).c = 0#4 ∧ (fields w).x = 0#4 ∧ (fields w).y = 0xE#4 ∧ (fields w).d = 0xE#4) ∨
    (i = .call (fields w).nnn ∧ (fields w).c = 2#4) ∨
    (i = .add (regOfNibble (fields w).x) (regOfNibble (fields w).y) ∧ (fields w).c = 8#4 ∧ (fields w).d = 4#4) := by
  simp only [decode] at h
  split_ifs at h
  all_goals simp_all

/-- A rejected word is rejected as unimplemented, under its own bits. -/
theorem decode_error_eq {w : Word} {r : Reject} (h : decode w = .error r) : r = .unimplementedOpcode w := by
  simp only [decode] at h
  split_ifs at h
  simp_all

/-- The two bytes of a word compose to the word again. -/
theorem wordOfBytes_bytes (w : Word) : wordOfBytes (highByte w) (lowByte w) = w := by
  simp only [wordOfBytes, highByte, lowByte]
  ext i hi
  rw [BitVec.getElem_or, BitVec.getElem_shiftLeft, BitVec.getElem_setWidth]
  by_cases h : i < 8
  · simp [h, BitVec.getLsbD_eq_getElem hi]
  · have h8 : i - 8 < 8 := by omega
    have hi' : 8 + (i - 8) = i := by omega
    simp [h, h8, hi', BitVec.getLsbD_eq_getElem hi]

theorem decodeBytes_bytes (w : Word) (rest : List Byte) :
    decodeBytes (highByte w :: lowByte w :: rest) =
      match decode w with
      | .ok i => .ok (i, rest)
      | .error r => .error r := by
  cases h : decode w <;> simp only [decodeBytes, wordOfBytes_bytes, h]

end Sys2Proof
end

