-- ==== Sys2Proof/Laws/Memory.lean ====
section
/-! SUPPORT. The laws of memory: a read after a write, the canonical form is kept, and equal reads mean equal memories. -/

namespace Sys2Proof.Machine

theorem Memory.wf_nil : Memory.wf [] := by simp [Memory.wf]

theorem Memory.wf_tail {k : Nat} {b : Byte} {m : Memory} (h : Memory.wf ((k, b) :: m)) : Memory.wf m :=
  ⟨(List.pairwise_cons.mp h.1).2, fun c hc => h.2 c (List.mem_cons_of_mem _ hc)⟩

/-- An address below every listed one is unlisted. -/
theorem Memory.read_below {m : Memory} {a : Nat} (h : ∀ c ∈ m, a < c.1) : m.read a = Memory.unlisted := by
  induction m with
  | nil => rfl
  | cons c rest ih =>
    have hc := h c (by simp)
    rw [Memory.read, if_neg (by omega)]
    exact ih fun d hd => h d (by simp [hd])

theorem Memory.read_cons_below {k a : Nat} {b : Byte} {m : Memory} (h : Memory.wf ((k, b) :: m)) (ha : a < k) :
    Memory.read ((k, b) :: m) a = Memory.unlisted :=
  Memory.read_below fun c hc => by
    rcases List.mem_cons.mp hc with rfl | hc
    · exact ha
    · exact lt_trans ha ((List.pairwise_cons.mp h.1).1 c hc)

theorem Memory.read_tail_key {k : Nat} {b : Byte} {m : Memory} (h : Memory.wf ((k, b) :: m)) :
    Memory.read m k = Memory.unlisted :=
  Memory.read_below (List.pairwise_cons.mp h.1).1

/-- An address outside the address space reads as unlisted. -/
theorem Memory.read_outside {m : Memory} (h : m.wf) {a : Nat} (ha : Config.memSize ≤ a) : m.read a = Memory.unlisted := by
  induction m with
  | nil => rfl
  | cons c rest ih =>
    have hc := (h.2 c (by simp)).1
    rw [Memory.read, if_neg (by omega)]
    exact ih (Memory.wf_tail h)

/-- A read after a write to the same address gives the byte written. -/
theorem Memory.read_write_same {m : Memory} (h : m.wf) (a : Nat) (v : Byte) : (m.write a v).read a = v := by
  induction m with
  | nil => by_cases hv : v = Memory.unlisted <;> simp [Memory.write, Memory.read, hv]
  | cons c rest ih =>
    obtain ⟨k, b⟩ := c
    rcases lt_trichotomy a k with hk | rfl | hk
    · by_cases hv : v = Memory.unlisted
      · simpa [Memory.write, hk, hv] using Memory.read_cons_below h hk
      · simp [Memory.write, hk, hv, Memory.read]
    · by_cases hv : v = Memory.unlisted
      · simpa [Memory.write, hv] using Memory.read_tail_key h
      · simp [Memory.write, hv, Memory.read]
    · have hne : k ≠ a := by omega
      simpa [Memory.write, not_lt.mpr hk.le, hne, Ne.symm hne, Memory.read] using ih (Memory.wf_tail h)

/-- A write leaves every other address as it was. -/
theorem Memory.read_write_other (m : Memory) {a a' : Nat} (v : Byte) (hne : a' ≠ a) :
    (m.write a v).read a' = m.read a' := by
  induction m with
  | nil => by_cases hv : v = Memory.unlisted <;> simp [Memory.write, Memory.read, hv, Ne.symm hne]
  | cons c rest ih =>
    obtain ⟨k, b⟩ := c
    rcases lt_trichotomy a k with hk | rfl | hk
    · by_cases hv : v = Memory.unlisted <;> simp [Memory.write, hk, hv, Memory.read, Ne.symm hne]
    · by_cases hv : v = Memory.unlisted <;> simp [Memory.write, hv, Memory.read, Ne.symm hne]
    · have hka : a ≠ k := by omega
      simp [Memory.write, not_lt.mpr hk.le, hka, Memory.read, ih]

/-- What a write can list: the written cell, if it holds no unlisted value, and cells that were listed. -/
theorem Memory.mem_write {m : Memory} {a : Nat} {v : Byte} {c : Host.Cell} (h : c ∈ m.write a v) :
    (c = (a, v) ∧ v ≠ Memory.unlisted) ∨ c ∈ m := by
  induction m with
  | nil =>
    by_cases hv : v = Memory.unlisted
    · simp [Memory.write, hv] at h
    · exact .inl ⟨by simpa [Memory.write, hv] using h, hv⟩
  | cons d rest ih =>
    obtain ⟨k, b⟩ := d
    by_cases hv : v = Memory.unlisted <;> by_cases h1 : a < k <;> by_cases h2 : a = k <;>
      simp [Memory.write, h1, h2, hv] at h ⊢ <;> grind

/-- Every write inside memory keeps the canonical form. -/
theorem Memory.write_wf {m : Memory} (h : m.wf) {a : Nat} (ha : a < Config.memSize) (v : Byte) : (m.write a v).wf := by
  refine ⟨?_, fun c hc => ?_⟩
  · induction m with
    | nil => by_cases hv : v = Memory.unlisted <;> simp [Memory.write, hv]
    | cons d rest ih =>
      obtain ⟨k, b⟩ := d
      have hd := List.pairwise_cons.mp h.1
      rcases lt_trichotomy a k with hk | rfl | hk
      · by_cases hv : v = Memory.unlisted
        · simpa [Memory.write, hk, hv] using hd
        · simp only [Memory.write, hk, hv, if_true, if_false, List.pairwise_cons, List.mem_cons]
          refine ⟨?_, hd⟩
          rintro c (rfl | hc)
          · exact hk
          · exact lt_trans hk (hd.1 c hc)
      · by_cases hv : v = Memory.unlisted
        · simpa [Memory.write, hv] using hd.2
        · simpa [Memory.write, hv] using hd
      · have hne : a ≠ k := by omega
        simp only [Memory.write, not_lt.mpr hk.le, hne, if_false, List.pairwise_cons]
        refine ⟨fun c hc => ?_, ih (Memory.wf_tail h)⟩
        rcases Memory.mem_write hc with ⟨rfl, -⟩ | hc
        · exact hk
        · exact hd.1 c hc
  · rcases Memory.mem_write hc with ⟨rfl, hv⟩ | hc
    · exact ⟨ha, hv⟩
    · exact h.2 c hc

/-- Two memories in canonical form that read the same everywhere are the same list. -/
theorem Memory.ext_of_read {m n : Memory} (hm : m.wf) (hn : n.wf) (h : ∀ a, m.read a = n.read a) : m = n := by
  induction m generalizing n with
  | nil =>
    cases n with
    | nil => rfl
    | cons d rest => exact absurd (by simpa [Memory.read] using (h d.1).symm) (hn.2 d (by simp)).2
  | cons c rest ih =>
    obtain ⟨k, b⟩ := c
    have hb := (hm.2 (k, b) (by simp)).2
    cases n with
    | nil => exact absurd (by simpa [Memory.read] using h k) hb
    | cons d rest' =>
      obtain ⟨k', b'⟩ := d
      have hb' := (hn.2 (k', b') (by simp)).2
      have hk : k = k' := by
        rcases lt_trichotomy k k' with hlt | heq | hlt
        · exact absurd ((by simpa [Memory.read] using h k : b = _).trans (Memory.read_cons_below hn hlt)) hb
        · exact heq
        · exact absurd ((by simpa [Memory.read] using (h k').symm : b' = _).trans (Memory.read_cons_below hm hlt)) hb'
      subst hk
      have hbb : b = b' := by simpa [Memory.read] using h k
      subst hbb
      congr 1
      refine ih (Memory.wf_tail hm) (Memory.wf_tail hn) fun a => ?_
      by_cases hak : k = a
      · subst hak
        rw [Memory.read_tail_key hm, Memory.read_tail_key hn]
      · simpa [Memory.read, hak] using h a

end Sys2Proof.Machine
end

