-- ==== Sys2Proof/Laws/State.lean ====
section
/-! SUPPORT. What each update of State leaves in each field, true by rfl, so that no later proof unfolds a record
update. -/

namespace Sys2Proof.Machine

@[simp] theorem State.writeReg_mem (s : State) (i : RegIdx) (b : Byte) :
    (s.writeReg i b).mem = s.mem := rfl
@[simp] theorem State.writeReg_v (s : State) (i : RegIdx) (b : Byte) :
    (s.writeReg i b).v = s.v.set i b := rfl
@[simp] theorem State.writeReg_stack (s : State) (i : RegIdx) (b : Byte) :
    (s.writeReg i b).stack = s.stack := rfl
@[simp] theorem State.writeReg_sp (s : State) (i : RegIdx) (b : Byte) :
    (s.writeReg i b).sp = s.sp := rfl
@[simp] theorem State.writeReg_pc (s : State) (i : RegIdx) (b : Byte) :
    (s.writeReg i b).pc = s.pc := rfl
@[simp] theorem State.writeReg_runState (s : State) (i : RegIdx) (b : Byte) :
    (s.writeReg i b).runState = s.runState := rfl
@[simp] theorem State.writeReg_fault (s : State) (i : RegIdx) (b : Byte) :
    (s.writeReg i b).fault = s.fault := rfl

@[simp] theorem State.writeFlag_mem (s : State) (b : Byte) :
    (s.writeFlag b).mem = s.mem := rfl
@[simp] theorem State.writeFlag_v (s : State) (b : Byte) :
    (s.writeFlag b).v = s.v.set Config.flagIndex b := rfl
@[simp] theorem State.writeFlag_stack (s : State) (b : Byte) :
    (s.writeFlag b).stack = s.stack := rfl
@[simp] theorem State.writeFlag_sp (s : State) (b : Byte) :
    (s.writeFlag b).sp = s.sp := rfl
@[simp] theorem State.writeFlag_pc (s : State) (b : Byte) :
    (s.writeFlag b).pc = s.pc := rfl
@[simp] theorem State.writeFlag_runState (s : State) (b : Byte) :
    (s.writeFlag b).runState = s.runState := rfl
@[simp] theorem State.writeFlag_fault (s : State) (b : Byte) :
    (s.writeFlag b).fault = s.fault := rfl

@[simp] theorem State.setPC_mem (s : State) (p : Word) :
    (s.setPC p).mem = s.mem := rfl
@[simp] theorem State.setPC_v (s : State) (p : Word) :
    (s.setPC p).v = s.v := rfl
@[simp] theorem State.setPC_stack (s : State) (p : Word) :
    (s.setPC p).stack = s.stack := rfl
@[simp] theorem State.setPC_sp (s : State) (p : Word) :
    (s.setPC p).sp = s.sp := rfl
@[simp] theorem State.setPC_pc (s : State) (p : Word) :
    (s.setPC p).pc = p := rfl
@[simp] theorem State.setPC_runState (s : State) (p : Word) :
    (s.setPC p).runState = s.runState := rfl
@[simp] theorem State.setPC_fault (s : State) (p : Word) :
    (s.setPC p).fault = s.fault := rfl

@[simp] theorem State.advance_mem (s : State) :
    s.advance.mem = s.mem := rfl
@[simp] theorem State.advance_v (s : State) :
    s.advance.v = s.v := rfl
@[simp] theorem State.advance_stack (s : State) :
    s.advance.stack = s.stack := rfl
@[simp] theorem State.advance_sp (s : State) :
    s.advance.sp = s.sp := rfl
@[simp] theorem State.advance_pc (s : State) :
    s.advance.pc = s.pc + Config.insnBytes := rfl
@[simp] theorem State.advance_runState (s : State) :
    s.advance.runState = s.runState := rfl
@[simp] theorem State.advance_fault (s : State) :
    s.advance.fault = s.fault := rfl

@[simp] theorem State.halt_mem (s : State) :
    s.halt.mem = s.mem := rfl
@[simp] theorem State.halt_v (s : State) :
    s.halt.v = s.v := rfl
@[simp] theorem State.halt_stack (s : State) :
    s.halt.stack = s.stack := rfl
@[simp] theorem State.halt_sp (s : State) :
    s.halt.sp = s.sp := rfl
@[simp] theorem State.halt_pc (s : State) :
    s.halt.pc = s.pc := rfl
@[simp] theorem State.halt_runState (s : State) :
    s.halt.runState = .halted := rfl
@[simp] theorem State.halt_fault (s : State) :
    s.halt.fault = s.fault := rfl

@[simp] theorem State.raise_mem (s : State) (c : FaultCause) (a : Word) (w : Option Word) :
    (s.raise c a w).mem = s.mem := rfl
@[simp] theorem State.raise_v (s : State) (c : FaultCause) (a : Word) (w : Option Word) :
    (s.raise c a w).v = s.v := rfl
@[simp] theorem State.raise_stack (s : State) (c : FaultCause) (a : Word) (w : Option Word) :
    (s.raise c a w).stack = s.stack := rfl
@[simp] theorem State.raise_sp (s : State) (c : FaultCause) (a : Word) (w : Option Word) :
    (s.raise c a w).sp = s.sp := rfl
@[simp] theorem State.raise_pc (s : State) (c : FaultCause) (a : Word) (w : Option Word) :
    (s.raise c a w).pc = s.pc := rfl
@[simp] theorem State.raise_runState (s : State) (c : FaultCause) (a : Word) (w : Option Word) :
    (s.raise c a w).runState = .faulted := rfl
@[simp] theorem State.raise_fault (s : State) (c : FaultCause) (a : Word) (w : Option Word) :
    (s.raise c a w).fault = ⟨c, a, w⟩ := rfl

@[simp] theorem State.raiseAt_mem (s : State) (c : FaultCause) (i : Instr) :
    (s.raiseAt c i).mem = s.mem := rfl
@[simp] theorem State.raiseAt_v (s : State) (c : FaultCause) (i : Instr) :
    (s.raiseAt c i).v = s.v := rfl
@[simp] theorem State.raiseAt_stack (s : State) (c : FaultCause) (i : Instr) :
    (s.raiseAt c i).stack = s.stack := rfl
@[simp] theorem State.raiseAt_sp (s : State) (c : FaultCause) (i : Instr) :
    (s.raiseAt c i).sp = s.sp := rfl
@[simp] theorem State.raiseAt_pc (s : State) (c : FaultCause) (i : Instr) :
    (s.raiseAt c i).pc = s.pc := rfl
@[simp] theorem State.raiseAt_runState (s : State) (c : FaultCause) (i : Instr) :
    (s.raiseAt c i).runState = .faulted := rfl
@[simp] theorem State.raiseAt_fault (s : State) (c : FaultCause) (i : Instr) :
    (s.raiseAt c i).fault = ⟨c, s.pc - Config.insnBytes, some (encode i)⟩ := rfl

end Sys2Proof.Machine
end

