-- ==== Sys2Proof/Laws/Ops.lean ====
section
/-! SUPPORT. One lemma per shared operation that says everything it can do. -/

namespace Sys2Proof.Machine

/-- A push of a stack that is not full. -/
theorem State.push_of_lt {s : State} (h : s.sp.val < Config.stackDepth) (ret : Word) :
    s.push ret = some { s with stack := s.stack.set s.sp.val ret, sp := ⟨s.sp.val + 1, Nat.succ_lt_succ h⟩ } := by
  simp [State.push, h]

/-- A push of a full stack writes nothing. -/
theorem State.push_of_full {s : State} (h : s.sp.val = Config.stackDepth) (ret : Word) : s.push ret = none := by
  simp [State.push, h]

/-- A pop of a stack that is not empty. -/
theorem State.pop_of_pos {s : State} (h : 0 < s.sp.val) :
    s.pop = some (s.stack[s.sp.val - 1], { s with sp := ⟨s.sp.val - 1, by omega⟩ }) := by
  simp [State.pop, h]

/-- A pop of an empty stack writes nothing. -/
theorem State.pop_of_empty {s : State} (h : s.sp.val = 0) : s.pop = none := by
  simp [State.pop, h]

/-- A fetch answers a word exactly inside memory, and then the big-endian word there. -/
theorem State.fetch_eq_some_iff {s : State} {w : Word} :
    s.fetch = some w ↔ s.pc.toNat ≤ 4094 ∧ s.mem.readWord s.pc.toNat = w := by
  have := Config.memSize_eq
  simp only [State.fetch]
  split_ifs with h
  · simp; omega
  · simp; omega

theorem State.fetch_eq_none_iff {s : State} : s.fetch = none ↔ 4095 ≤ s.pc.toNat := by
  have := Config.memSize_eq
  simp only [State.fetch]
  split_ifs with h
  · simp; omega
  · simp; omega

/-- The loader's store keeps the canonical form of memory. -/
theorem State.loadByte_wf {s : State} (h : s.mem.wf) (a : Nat) (b : Byte) : (s.loadByte a b).mem.wf := by
  unfold State.loadByte
  split_ifs with ha
  · exact Memory.write_wf h ha b
  · exact h

/-- What the loader stores, the fetch reads: the word at the pc, inside memory. -/
theorem State.fetch_loadWord {s : State} (h : s.mem.wf) (hpc : s.pc.toNat ≤ 4094) (w : Word) :
    (s.loadWord s.pc.toNat w).fetch = some w := by
  have := Config.memSize_eq
  have h1 : s.pc.toNat < Config.memSize := by omega
  have h2 : s.pc.toNat + 1 < Config.memSize := by omega
  have hw := Memory.write_wf h h1 (highByte w)
  rw [State.fetch_eq_some_iff]
  simp only [State.loadWord, State.loadByte, h1, h2, if_true]
  refine ⟨hpc, ?_⟩
  rw [Memory.readWord, Memory.read_write_same hw, Memory.read_write_other _ _ (by omega),
    Memory.read_write_same h, wordOfBytes_bytes]

end Sys2Proof.Machine
end

