-- ==== Sys2Proof/Laws/Step.lean ====
section
/-! SUPPORT. What a step can do, said once: `StepEffect` lists the nine cases with the next state of each, and every step
is one of them. With it, the laws of `nextInstr`, of a run and of `withFetchWord`. -/

namespace Sys2Proof.Machine

/-- A step of a machine that is not Running changes nothing. -/
theorem step_of_not_running {s : State} (h : s.runState ≠ .running) : step s = .next s := by
  cases hr : s.runState <;> simp_all [step, stepRunning]

theorem step_of_running {s : State} (h : s.runState = .running) : step s = cycle s := by
  simp [step, stepRunning, h]

/-- Undoing the advance gives the instruction's own address back. -/
theorem State.instrAddr_advance (s : State) : s.advance.instrAddr = s.pc := by
  simp [State.instrAddr]

/-- The nine things a step can do to `s`, each with the state it leaves. -/
inductive StepEffect (s : State) : State → Prop where
  | terminal (hr : s.runState ≠ .running) : StepEffect s s
  | fetchFault (hr : s.runState = .running) (hf : s.fetch = none) :
      StepEffect s { s with fault := ⟨.outOfBoundsFetch, s.pc, none⟩, runState := .faulted }
  | illegal (w : Word) (hr : s.runState = .running) (hf : s.fetch = some w)
      (hd : decode w = .error (.unimplementedOpcode w)) :
      StepEffect s { s with
        pc := s.pc + 2#16, fault := ⟨.unimplementedOpcode, s.pc, some w⟩, runState := .faulted }
  | halt (w : Word) (hr : s.runState = .running) (hf : s.fetch = some w) (hd : decode w = .ok .halt) :
      StepEffect s { s with pc := s.pc + 2#16, runState := .halted }
  | underflow (w : Word) (hr : s.runState = .running) (hf : s.fetch = some w) (hd : decode w = .ok .ret)
      (hsp : s.sp.val = 0) :
      StepEffect s { s with
        pc := s.pc + 2#16, fault := ⟨.stackUnderflow, s.pc, some (encode .ret)⟩, runState := .faulted }
  | ret (w : Word) (hr : s.runState = .running) (hf : s.fetch = some w) (hd : decode w = .ok .ret)
      (hsp : 0 < s.sp.val) :
      StepEffect s { s with pc := s.stack[s.sp.val - 1], sp := ⟨s.sp.val - 1, by omega⟩ }
  | overflow (w : Word) (nnn : Addr12) (hr : s.runState = .running) (hf : s.fetch = some w)
      (hd : decode w = .ok (.call nnn)) (hsp : s.sp.val = Config.stackDepth) :
      StepEffect s { s with
        pc := s.pc + 2#16, fault := ⟨.stackOverflow, s.pc, some (encode (.call nnn))⟩, runState := .faulted }
  | call (w : Word) (nnn : Addr12) (hr : s.runState = .running) (hf : s.fetch = some w)
      (hd : decode w = .ok (.call nnn)) (hsp : s.sp.val < Config.stackDepth) :
      StepEffect s { s with
        pc := nnn.setWidth 16, stack := s.stack.set s.sp.val (s.pc + 2#16),
        sp := ⟨s.sp.val + 1, Nat.succ_lt_succ hsp⟩ }
  | add (w : Word) (x y : RegIdx) (hr : s.runState = .running) (hf : s.fetch = some w)
      (hd : decode w = .ok (.add x y)) :
      StepEffect s { s with
        pc := s.pc + 2#16, v := (s.v.set x (sumByte s.v[x] s.v[y])).set 15 (carryByte s.v[x] s.v[y]) }

/-- The action of an instruction, fetched by a Running machine, is one of the nine. -/
theorem exec_effect {s t : State} {w : Word} {i : Instr} (hr : s.runState = .running) (hf : s.fetch = some w)
    (hd : decode w = .ok i) (h : exec i s.advance = .next t) : StepEffect s t := by
  cases i with
  | halt =>
    obtain rfl : s.advance.halt = t := by simpa [exec, execHalt] using h
    exact .halt w hr hf hd
  | ret =>
    rcases Nat.eq_zero_or_pos s.sp.val with h0 | h0
    · rw [exec, execReturn, State.pop_of_empty (by exact h0)] at h
      obtain rfl : s.advance.raiseAt .stackUnderflow .ret = t := by simpa using h
      rw [State.raiseAt, State.instrAddr_advance]
      exact .underflow w hr hf hd h0
    · rw [exec, execReturn, State.pop_of_pos (by exact h0)] at h
      obtain rfl := Host.Outcome.next.inj h
      exact .ret w hr hf hd h0
  | call nnn =>
    rcases Nat.lt_or_ge s.sp.val Config.stackDepth with h0 | h0
    · rw [exec, execCall, State.push_of_lt (by exact h0)] at h
      obtain rfl := Host.Outcome.next.inj h
      exact .call w nnn hr hf hd h0
    · have h1 : s.sp.val = Config.stackDepth := by have := s.sp.isLt; omega
      rw [exec, execCall, State.push_of_full (by exact h1)] at h
      obtain rfl : s.advance.raiseAt .stackOverflow (.call nnn) = t := by simpa using h
      rw [State.raiseAt, State.instrAddr_advance]
      exact .overflow w nnn hr hf hd h1
  | add x y =>
    obtain rfl := Host.Outcome.next.inj h
    exact .add w x y hr hf hd

/-- Every step is one of the nine. -/
theorem step_effect {s t : State} (h : step s = .next t) : StepEffect s t := by
  by_cases hr : s.runState = .running
  · rw [step_of_running hr, cycle] at h
    cases hf : s.fetch with
    | none =>
      obtain rfl : s.raise .outOfBoundsFetch s.pc none = t := by simpa [hf] using h
      exact .fetchFault hr hf
    | some w =>
      cases hd : decode w with
      | error r =>
        obtain rfl := decode_error_eq hd
        obtain rfl : s.advance.raise .unimplementedOpcode s.pc (some w) = t := by simpa [hf, hd] using h
        exact .illegal w hr hf hd
      | ok i => exact exec_effect hr hf hd (by simpa [hf, hd] using h)
  · rw [step_of_not_running hr] at h
    obtain rfl := Host.Outcome.next.inj h
    exact .terminal hr

/-- The next instruction is what the word at the pc of a Running machine decodes to. -/
theorem State.nextInstr_eq_some_iff {s : State} {i : Instr} :
    s.nextInstr = some i ↔ s.runState = .running ∧ ∃ w, s.fetch = some w ∧ decode w = .ok i := by
  unfold State.nextInstr
  cases hr : s.runState <;> cases hf : s.fetch with
  | none => simp
  | some w => cases hd : decode w <;> simp [hd, Except.toOption]

/-- A run of `k + 1` steps is a step and a run of `k`. -/
theorem run_succ_eq_next_iff {k : Nat} {s t : State} :
    core.run (k + 1) s = .next t ↔ ∃ u, step s = .next u ∧ core.run k u = .next t := by
  cases hs : step s with
  | next u =>
    have hc : core.step s = .next u := hs
    simp [Host.Core.run, hc]
  | fault r => nomatch r
  | refused r =>
    have hc : core.step s = .refused r := hs
    simp [Host.Core.run, hc]

/-- The step after `withFetchWord` fetches exactly the given word. -/
theorem State.fetch_withFetchWord {s : State} (h : s.mem.wf) (hpc : s.pc.toNat ≤ 4094) (nbits w : Nat) :
    (s.withFetchWord nbits w).fetch = some (tableWord nbits w) :=
  State.fetch_loadWord h hpc _

end Sys2Proof.Machine
end

