-- ==== Sys2Proof/Laws/Safety.lean ====
section
/-! SUPPORT. The laws of the predicates that claims use: the launch premises that allow every value, and the induction
along a run. -/

namespace Sys2Proof.Safety

open Sys2Proof.Machine

/-- Every state meets LaunchRegs: a register is never without a byte (70_reset_and_hazards.md R173). -/
theorem launchRegs_any (s : State) : LaunchRegs s := fun i => ⟨s.readReg i, rfl⟩

/-- Every state meets LaunchPC. -/
theorem launchPC_any (s : State) : LaunchPC s := ⟨s.pc, rfl⟩

/-- What holds at the start of a run, and is kept by every step that the run takes, holds all along it. -/
theorem run_induction {P : State → Prop} {s : State} (h0 : P s)
    (hstep : ∀ k u v, core.run k s = .next u → P u → step u = .next v → P v) :
    ∀ k t, core.run k s = .next t → P t := by
  intro k
  induction k generalizing s with
  | zero => exact fun t h => by rwa [← Host.Outcome.next.inj h]
  | succ k ih =>
    intro t h
    obtain ⟨u, hu, hk⟩ := run_succ_eq_next_iff.1 h
    exact ih (hstep 0 s u rfl h0 hu)
      (fun j v w hj => hstep (j + 1) v w (run_succ_eq_next_iff.2 ⟨u, hu, hj⟩)) t hk

end Sys2Proof.Safety
end

