-- ==== Sys2Proof/Tests/Slice0.lean ====
section
/-! SUPPORT. The model's own tests: decoding of words written out bit by bit from the encodings (spec 30_encoding.md R73,
R82), the legality check on ill-formed words, one-step vectors of 95_test_vectors.md, and for every statement with
hypotheses a witness that meets them. -/

namespace Sys2Proof.Tests

open Sys2Proof.Machine Sys2Proof.Safety

/-- A Running machine with one word at its pc, and the rest as after reset. -/
def atPC (pc : Word) (w : Nat) : State := (State.reset.setPC pc).withFetchWord 16 w

/-- The same with a stack of height `h` whose newest entry is `e`. -/
def atPCWithStack (pc : Word) (w : Nat) (h : Fin 17) (e : Word) : State :=
  { atPC pc w with sp := h, stack := Vector.ofFn fun i : Fin 16 => if i.val + 1 = h.val then e else 0x0100#16 }

/-- The same with two registers preset, the second last. -/
def atPCWithRegs (pc : Word) (w : Nat) (i : RegIdx) (a : Byte) (j : RegIdx) (b : Byte) : State :=
  ((atPC pc w).writeReg i a).writeReg j b

/-- What `f` reads in the next state, if there is one. -/
def afterStep {α : Type} (s : State) (f : State → α) : Option α :=
  match step s with
  | .next t => some (f t)
  | .fault _ => none
  | .refused _ => none

/-! ### Decoding, and ill-formed words -/

theorem test_decode_halt : decodeTableWord 16 0b0000000000000000 = some .halt := by decide
theorem test_decode_return : decodeTableWord 16 0b0000000011101110 = some .ret := by decide
theorem test_decode_call : decodeTableWord 16 0b0010101010111100 = some (.call 0xABC) := by decide
theorem test_decode_add : decodeTableWord 16 0b1000101010110100 = some (.add 0xA 0xB) := by decide
theorem test_decode_bytes_big_endian : decodeBytes [0x80, 0x14, 0x55] = .ok (.add 0 1, [0x55]) := by rfl
theorem test_decode_truncated : decodeBytes [0x80] = .error .truncated := by rfl

theorem test_ill_formed_halt : wordLegal 0x0001 = false ∧ decodeTableWord 16 0x0001 = none := by decide
theorem test_ill_formed_return : wordLegal 0x00EF = false ∧ decodeTableWord 16 0x0E0E = none := by decide
theorem test_ill_formed_call : wordLegal 0x1FFF = false ∧ wordLegal 0x3000 = false := by decide
theorem test_ill_formed_add : wordLegal 0x8FF5 = false ∧ wordLegal 0x9004 = false := by decide
theorem test_legal_edges : wordLegal 0x2000 = true ∧ wordLegal 0x2FFF = true ∧ wordLegal 0x8FF4 = true := by decide

/-! ### One-step vectors -/

/-- Vector H2: HALT in the last slot. -/
theorem test_halt_last_slot : afterStep (atPC 0x0FFE 0x0000) (fun t => (t.runState, t.pc)) = some (.halted, 0x1000) := by
  decide

/-- Vector H5: HALT at an odd address, between non-zero bytes. -/
theorem test_halt_odd : afterStep (((atPC 0x0003 0x0000).loadByte 2 0xFF).loadByte 5 0xFF) (fun t => (t.runState, t.pc)) =
    some (.halted, 0x0005) := by decide

/-- Vector K11: RETURN from a full stack. -/
theorem test_return_from_full : afterStep (atPCWithStack 0x0060 0x00EE 16 0x0052) (fun t => (t.sp, t.pc)) =
    some (15, 0x0052) := by decide

/-- Vector K9: RETURN on an empty stack. -/
theorem test_return_underflow : afterStep (atPC 0x0000 0x00EE) (fun t => (t.runState, t.pc, t.fault)) =
    some (.faulted, 0x0002, ⟨.stackUnderflow, 0x0000, some 0x00EE⟩) := by decide

/-- Vector K10: the sixteenth entry is usable. -/
theorem test_call_sixteenth : afterStep (atPCWithStack 0x0050 0x2060 15 0x0ABC) (fun t => (t.sp, t.stack[15], t.pc)) =
    some (16, 0x0052, 0x0060) := by decide

/-- Vector K8: CALL on a full stack. -/
theorem test_call_overflow : afterStep (atPCWithStack 0x0040 0x2044 16 0) (fun t => (t.sp, t.pc, t.fault)) =
    some (16, 0x0042, ⟨.stackOverflow, 0x0040, some 0x2044⟩) := by decide

/-- Vector A6: `y = 15`, the old flag is the operand. -/
theorem test_add_flag_as_source : afterStep (atPCWithRegs 0 0x81F4 1 0x10 15 0xF5) (fun t => (t.v[1], t.v[15], t.pc)) =
    some (0x05, 0x01, 0x0002) := by decide

/-- Vector A7: `x = 15`, the sum is lost. -/
theorem test_add_into_flag : afterStep (atPCWithRegs 0 0x8F14 15 0x03 1 0x04) (fun t => (t.v[15], t.v[1])) =
    some (0x00, 0x04) := by decide

/-- Vector X8: an illegal word. -/
theorem test_illegal_word : afterStep (atPC 0x0000 0x00E0) (fun t => (t.runState, t.pc, t.fault)) =
    some (.faulted, 0x0002, ⟨.unimplementedOpcode, 0x0000, some 0x00E0⟩) := by decide

/-- Vectors X3 and X4: fetch at the edge, and where `p + 1` would wrap. -/
theorem test_fetch_out_of_bounds : afterStep (State.reset.setPC 0x0FFF) (fun t => (t.pc, t.fault)) =
      some (0x0FFF, ⟨.outOfBoundsFetch, 0x0FFF, none⟩) ∧
    afterStep (State.reset.setPC 0xFFFF) (fun t => (t.pc, t.fault)) =
      some (0xFFFF, ⟨.outOfBoundsFetch, 0xFFFF, none⟩) := by decide

/-- The read-back exists only after the run, and LoadByte only inside memory (R172, R176). -/
theorem test_host_port : Session.start.readBack = none ∧ Session.start.move (.loadByte 4096 1) = none ∧
    (⟨State.reset.halt, true⟩ : Session).readBack = some State.reset.halt := by
  decide

/-! ### Witnesses: every hypothesis of every statement is met together -/

theorem witness_DecodedWordIsItsEncoding : decode 0x2FFF = .ok (.call 0xFFF) ∧ decode 0x8FF4 = .ok (.add 15 15) :=
  ⟨rfl, rfl⟩

theorem witness_DecoderFollowsDispatchTable : haltRow.selects 0x0000 = true ∧ returnRow.selects 0x00EE = true ∧
    callRow.selects 0x2FFF = true ∧ addRow.selects 0x8F04 = true ∧ wordLegal 0xFFFF = false := by decide

theorem witness_FetchIsBigEndian : (atPC 0x0FFE 0x00EE).pc.toNat ≤ 4094 := by decide

theorem witness_FetchBoundAndAdvance : (State.reset.setPC 0x0FFF).fetch = none ∧
    (atPC 0x0FFE 0x8014).fetch = some 0x8014 := by decide

theorem witness_StepRunsDecodedInstruction : ∃ (s : State) (w : Word) (i : Instr),
    s.runState = .running ∧ s.fetch = some w ∧ decode w = .ok i :=
  ⟨atPC 0x0FFE 0x8014, 0x8014, .add 0 1, by decide, by decide, rfl⟩

/-- A Running machine: the hypothesis of PcAfterEachStep and TerminalConditionsExact. -/
theorem witness_PcAfterEachStep_TerminalConditionsExact : (atPC 0x0FFE 0x0000).runState = .running := by decide

/-- Each clause of PcHasThreeWriters: a pc that an action changes, a decoded word, an illegal word, no fetch. -/
theorem witness_PcHasThreeWriters :
    (∃ t : State, exec (.call 0xFFF) State.reset = .next t ∧ t.pc ≠ State.reset.pc) ∧
    (∃ (s : State) (w : Word) (i : Instr), s.runState = .running ∧ s.fetch = some w ∧ decode w = .ok i) ∧
    (∃ (s t : State) (w : Word), s.runState = .running ∧ s.fetch = some w ∧ wordLegal w = false ∧ step s = .next t) ∧
    (∃ s t : State, s.runState = .running ∧ s.fetch = none ∧ step s = .next t) :=
  ⟨⟨_, rfl, by decide⟩, ⟨atPC 0 0x00EE, 0x00EE, .ret, by decide, by decide, rfl⟩,
    ⟨atPC 0x0FFE 0xFFFF, _, 0xFFFF, by decide, by decide, by decide, rfl⟩,
    ⟨State.reset.setPC 0x0FFF, _, by decide, by decide, rfl⟩⟩

theorem witness_TerminalStatesAbsorb : State.reset.halt.runState ≠ .running ∧
    (State.reset.raise .stackOverflow 0 none).runState ≠ .running := by decide

/-- Each way a run ends, for the two equivalences of TerminalConditionsExact. -/
theorem witness_TerminalConditionsExact : (atPC 0 0x0000).fetch = some 0x0000 ∧
    (State.reset.setPC 0x0FFF).fetch = none ∧
    (∃ w, (atPC 0 0x0001).fetch = some w ∧ wordLegal w = false) ∧
    ((atPCWithStack 0 0x2000 16 0).nextInstr = some (.call 0) ∧ (atPCWithStack 0 0x2000 16 0).sp.val = 16) ∧
    ((atPC 0 0x00EE).nextInstr = some .ret ∧ (atPC 0 0x00EE).sp.val = 0) :=
  ⟨by decide, by decide, ⟨0x0001, by decide, by decide⟩, by decide, by decide⟩

theorem witness_HaltEndsRunNormally : (atPC 0x0FFE 0x0000).runState = .running ∧
    (atPC 0x0FFE 0x0000).fetch = some 0x0000 := by decide

/-- RETURN at heights 1 and 16, and on the empty stack. -/
theorem witness_ReturnPopsOrUnderflows : (atPCWithStack 0 0x00EE 1 2).sp.val ≠ 0 ∧
    (atPCWithStack 0 0x00EE 16 2).sp.val ≠ 0 ∧ (atPC 0 0x00EE).sp.val = 0 := by decide

/-- CALL at heights 0 and 15. -/
theorem witness_CallPushesAndRedirects : (atPC 0 0x2FFF).sp.val < 16 ∧
    (atPCWithStack 0 0x2FFF 15 2).sp.val < 16 := by decide

theorem witness_CallSavesAddressPlusTwo : (atPCWithStack 0x0FFE 0x2FFF 15 2).sp.val < 16 ∧
    (atPCWithStack 0x0FFE 0x2FFF 15 2).nextInstr = some (.call 0xFFF) := by decide

theorem witness_CallOnFullStackOverflows : ∃ (s : State) (w : Word) (nnn : Addr12),
    s.runState = .running ∧ s.fetch = some w ∧ decode w = .ok (.call nnn) ∧ s.sp.val = 16 :=
  ⟨atPCWithStack 0x0FFE 0x2FFF 16 2, 0x2FFF, 0xFFF, by decide, by decide, rfl, by decide⟩

theorem witness_ReturnOnEmptyStackUnderflows : (atPC 0x0FFE 0x00EE).runState = .running ∧
    (atPC 0x0FFE 0x00EE).fetch = some 0x00EE ∧ (atPC 0x0FFE 0x00EE).sp.val = 0 := by decide

/-- A CALL at 0 to address 4, where an ADD and then a RETURN stand: one step between the two. -/
def callAddReturn : State := ((State.reset.loadWord 0 0x2004).loadWord 4 0x8014).loadWord 6 0x00EE

theorem witness_CallReturnPairing : ∃ (s c t : State) (nnn : Addr12) (k : Nat),
    s.nextInstr = some (.call nnn) ∧ s.sp.val < 16 ∧ step s = .next c ∧ core.run k c = .next t ∧
    (∀ j u, j < k → core.run j c = .next u → ¬ (u.nextInstr = some .ret ∧ u.sp.val = s.sp.val + 1)) ∧
    t.nextInstr = some .ret ∧ t.sp.val = s.sp.val + 1 := by
  refine ⟨callAddReturn, _, _, 4, 1, by decide, by decide, rfl, rfl, ?_, by decide, by decide⟩
  intro j u hj hu
  obtain rfl : j = 0 := by omega
  obtain rfl := Host.Outcome.next.inj hu
  decide

/-- Sums 255 and 256, and a destination that is not 15. -/
theorem witness_FlagIsCarryOfEveryAdd :
    (atPCWithRegs 0 0x8014 0 0xFF 1 0x01).v[0].toNat + (atPCWithRegs 0 0x8014 0 0xFF 1 0x01).v[1].toNat > 255 ∧
    (atPCWithRegs 0 0x8014 0 0xFF 1 0x00).v[0].toNat + (atPCWithRegs 0 0x8014 0 0xFF 1 0x00).v[1].toNat ≤ 255 ∧
    (0 : RegIdx) ≠ 15 := by decide

theorem witness_AddIntoFlagKeepsCarry : (14 : RegIdx) ≠ 15 := by decide

theorem witness_AddNeverFaults : (atPC 0x0FFE 0x8FF4).nextInstr = some (.add 15 15) := by decide

/-- A flag of 0, a flag of 1, and an ADD over a flag register of 0x37. -/
theorem witness_FlagStaysZeroOrOne :
    (∃ s t : State, step s = .next t ∧ s.v[15] = 0) ∧ (∃ s t : State, step s = .next t ∧ s.v[15] = 1) ∧
    (∃ s t : State, step s = .next t ∧ s.v[15] = 0x37 ∧ ∃ x y, s.nextInstr = some (.add x y)) :=
  ⟨⟨atPC 0 0x2000, _, rfl, by decide⟩, ⟨(atPC 0 0x2000).writeReg 15 1, _, rfl, by decide⟩,
    ⟨(atPC 0 0x8014).writeReg 15 0x37, _, rfl, by decide, 0, 1, by decide⟩⟩

theorem witness_AddFrame : (∃ t, exec (.add 3 15) State.reset = .next t) ∧ (0 : RegIdx) ≠ 3 ∧ (0 : RegIdx) ≠ 15 :=
  ⟨⟨_, rfl⟩, by decide⟩

/-- Each of the three instructions, on its own effect and on its fault. -/
theorem witness_HaltReturnCallFrame_OnlyAddTouchesRegisters :
    (∃ t, exec .halt State.reset = .next t) ∧ (∃ t, exec .ret State.reset = .next t) ∧
    (∃ t, exec .ret (atPCWithStack 0 0 1 2) = .next t) ∧ (∃ t, exec (.call 0xFFF) State.reset = .next t) ∧
    (∃ t, exec (.call 0xFFF) (atPCWithStack 0 0 16 2) = .next t) ∧ (∀ x y, Instr.ret ≠ .add x y) :=
  ⟨⟨_, rfl⟩, ⟨_, rfl⟩, ⟨_, rfl⟩, ⟨_, rfl⟩, ⟨_, rfl⟩, by decide⟩

/-- The second part of OnlyAddTouchesRegisters: two states that agree on the two sources and differ elsewhere. -/
theorem witness_OnlyAddTouchesRegisters : ∃ s s' t t' : State, s ≠ s' ∧ exec (.add 0 1) s = .next t ∧
    exec (.add 0 1) s' = .next t' ∧ s.v[0] = s'.v[0] ∧ s.v[1] = s'.v[1] :=
  ⟨State.reset, State.reset.writeReg 2 1, _, _, by decide, rfl, rfl, by decide, by decide⟩

/-- The third part: a register that is neither `x` nor 15. -/
theorem witness_OnlyAddTouchesRegisters_others : (∃ t, exec (.add 0 1) State.reset = .next t) ∧
    (14 : RegIdx) ≠ 0 ∧ (14 : RegIdx) ≠ 15 := ⟨⟨_, rfl⟩, by decide⟩

/-- A step that answers: the hypothesis of MemoryNeverChanges and, with a CALL and a RETURN, of
OnlyCallAndReturnTouchStack. -/
theorem witness_MemoryNeverChanges_OnlyCallAndReturnTouchStack :
    (∃ s t : State, step s = .next t ∧ t.stack ≠ s.stack ∧ t.sp ≠ s.sp) ∧
    (∃ s t : State, step s = .next t ∧ s.nextInstr = some .ret ∧ t.sp ≠ s.sp) :=
  ⟨⟨atPC 0 0x2000, _, rfl, fun h => absurd (congrArg (fun v => v[0]) h) (by decide), by decide⟩,
    ⟨atPCWithStack 0 0x00EE 1 2, _, rfl, by decide, by decide⟩⟩

theorem witness_IllegalWordFaults : (atPC 0x0FFE 0xFFFF).runState = .running ∧
    (atPC 0x0FFE 0xFFFF).fetch = some 0xFFFF ∧ wordLegal 0xFFFF = false := by decide

theorem witness_OutOfBoundsFetchFaults : (State.reset.setPC 0x0FFF).runState = .running ∧
    0xFFF ≤ (State.reset.setPC 0x0FFF).pc.toNat ∧ 0xFFF ≤ (State.reset.setPC 0xFFFF).pc.toNat := by decide

theorem witness_FaultsArePrecise : ∃ s t : State, s.runState = .running ∧ step s = .next t ∧ t.runState = .faulted :=
  ⟨atPCWithStack 0 0x2000 16 2, _, by decide, rfl, by decide⟩

/-- A Running machine with no fault recorded, and each cause's condition. -/
theorem witness_FaultCausesExact : State.reset.runState = .running ∧ State.reset.fault.cause = .noFault ∧
    (∃ w, (atPC 0 0x8015).fetch = some w ∧ wordLegal w = false) ∧
    (∃ nnn, (atPCWithStack 0 0x2FFF 16 2).nextInstr = some (.call nnn) ∧ (atPCWithStack 0 0x2FFF 16 2).sp.val = 16) ∧
    ((atPC 0 0x00EE).nextInstr = some .ret ∧ (atPC 0 0x00EE).sp.val = 0) ∧
    0xFFF ≤ (State.reset.setPC 0x0FFF).pc.toNat :=
  ⟨rfl, rfl, ⟨0x8015, by decide, by decide⟩, ⟨0xFFF, by decide, by decide⟩, by decide, by decide⟩

theorem witness_LoadByteStoresOneByte : Session.start.launched = false ∧ 4095 < 4096 ∧ Session.start.machine.mem.wf := by
  decide

theorem witness_PresetAndLaunchMoves : Session.start.launched = false := rfl

/-- Each phase of StepsAndReadBackByPhase: before launch, a run, the end. -/
theorem witness_StepsAndReadBackByPhase : Session.start.launched = false ∧
    (∃ t, State.reset.runState = .running ∧ step State.reset = .next t) ∧ State.reset.halt.runState ≠ .running :=
  ⟨rfl, ⟨_, rfl, rfl⟩, by decide⟩

/-- A memory in canonical form with both ends listed, for the uniqueness of EveryImageIsOneMemory. -/
theorem witness_EveryImageIsOneMemory : Memory.wf [(0, 0x80), (4095, 0x14)] := by decide

theorem witness_HostReachesOnlyLaunchStates : Reachable Session.start ∧ Session.start.launched = false :=
  ⟨.start, rfl⟩

theorem witness_HostReachesEveryLaunchState :
    LaunchPremises (atPCWithRegs 0x0FFE 0x8014 0 1 1 2) ∧ (atPCWithRegs 0x0FFE 0x8014 0 1 1 2).fault.addr = 0 :=
  ⟨⟨rfl, ⟨rfl, rfl⟩, rfl, by unfold LaunchStackZero; decide, by unfold LaunchMemory; decide,
    launchRegs_any _, launchPC_any _⟩, rfl⟩

theorem witness_OnlyResetAfterLaunch : Session.start.move .launch = some ⟨State.reset, true⟩ := by decide

/-- The invariant at reset, with a step from there. -/
theorem reset_meets_invariant_and_steps : Inv State.reset ∧ ∃ t, step State.reset = .next t :=
  ⟨⟨Memory.wf_nil, ⟨by decide, by decide⟩, by unfold LiveEntriesInRange; decide⟩, _, rfl⟩

/-- A state with a live entry meets the invariant, runs a RETURN and takes no fault. -/
theorem witness_StepKeepsInvariant_PcBoundAfterStep : ∃ s t : State,
    Inv s ∧ s.runState = .running ∧ step s = .next t ∧ t.runState ≠ .faulted :=
  ⟨atPCWithStack 0x0010 0x00EE 1 0x1000, _,
    ⟨by decide, ⟨by decide, by decide⟩, by unfold LiveEntriesInRange; decide⟩, by decide, rfl, by decide⟩

/-- A launched session that has taken a step is reachable. -/
theorem witness_ReachableMeetsInvariant : ∃ z : Session, Reachable z ∧ z.machine.runState = .halted :=
  ⟨⟨{ State.reset with runState := .halted, pc := 2 }, true⟩,
    .tick ⟨State.reset, true⟩ _ (.move .launch _ _ .start rfl) rfl, rfl⟩

/-- An even state about to execute a CALL with an even target. -/
theorem witness_EvenProgramsStayEven : ∃ s t : State,
    PCEven s ∧ (∀ nnn, s.nextInstr = some (.call nnn) → nnn.toNat % 2 = 0) ∧ step s = .next t := by
  refine ⟨atPCWithStack 0x0010 0x2ABC 1 0x0002, _, ⟨by decide, by decide⟩, fun nnn h => ?_, rfl⟩
  have hc : (atPCWithStack 0x0010 0x2ABC 1 0x0002).nextInstr = some (.call 0xABC) := by decide
  obtain rfl : (0xABC : Addr12) = nnn := by simpa using hc.symm.trans h
  decide

/-- Vector H4: a CALL with an even target, then a HALT. Every state of the run has an even next CALL, if it has one. -/
theorem witness_EvenLaunchKeepsPcEven : LaunchPremises (atPC 0 0x2004) ∧ LaunchEven (atPC 0 0x2004) ∧
    ∃ t, core.run 2 (atPC 0 0x2004) = .next t ∧ t.runState = .halted := by
  refine ⟨⟨rfl, ⟨rfl, rfl⟩, rfl, by unfold LaunchStackZero; decide, by unfold LaunchMemory; decide,
    launchRegs_any _, launchPC_any _⟩, ⟨by decide, fun k t h => ?_⟩, _, rfl, by decide⟩
  have hcall : NextCallEven (atPC 0 0x2004) := fun nnn h => by
    obtain rfl : (0x004 : Addr12) = nnn := by
      simpa using (by decide : (atPC 0 0x2004).nextInstr = some (.call 0x004)).symm.trans h
    decide
  match k with
  | 0 => rwa [← Host.Outcome.next.inj h]
  | 1 =>
    obtain rfl := Host.Outcome.next.inj h
    exact fun nnn h => absurd h (by rw [show State.nextInstr _ = some .halt from by decide]; simp)
  | k + 2 =>
    obtain ⟨u, hu, h⟩ := run_succ_eq_next_iff.1 h
    obtain rfl := Host.Outcome.next.inj hu
    obtain ⟨u, hu, h⟩ := run_succ_eq_next_iff.1 h
    obtain rfl := Host.Outcome.next.inj hu
    refine run_induction (P := fun t => t.runState ≠ .running ∧ NextCallEven t)
      ⟨by decide, fun nnn h => ?_⟩ (fun _ u v _ hu hv => ?_) k t h |>.2
    · exact absurd (State.nextInstr_eq_some_iff.1 h).1 (by decide)
    · obtain rfl := Host.Outcome.next.inj ((step_of_not_running hu.1).symm.trans hv)
      exact hu

/-- A CALL at height 1: the live entry below is kept. -/
theorem witness_LiveEntryKeptUntilItsReturn : ∃ s t : State, ∃ (h : Fin 16) (e : Word),
    (h.val < s.sp.val ∧ s.stack[h] = e) ∧ ¬ (s.nextInstr = some .ret ∧ s.sp.val = h.val + 1) ∧ step s = .next t :=
  ⟨atPCWithStack 0x0010 0x2ABC 1 0x0002, _, 0, 0x0002, by decide, by decide, rfl⟩

/-- Two different states that differ in a stale entry only. -/
theorem witness_StaleEntriesUnobservable : ∃ s t s' : State, s ≠ t ∧ SameButStale s t ∧ step s = .next s' :=
  ⟨State.reset, { State.reset with stack := State.reset.stack.set 0 0x0002 }, _,
    fun h => absurd (congrArg (fun s => s.stack[0]) h) (by decide),
    ⟨rfl, rfl, rfl, rfl, rfl, rfl, by decide⟩, rfl⟩

/-- A RETURN, a CALL and an ADD that leave the machine Running. -/
theorem witness_VariantGrowsWhileRunning : ∀ w ∈ [0x00EE, 0x2000, 0x8014], ∃ s t : State,
    s = atPCWithStack 0x0FFE w 1 0x0002 ∧ s.runState = .running ∧ step s = .next t ∧ t.runState = .running := by
  intro w hw
  simp only [List.mem_cons, List.not_mem_nil, or_false] at hw
  rcases hw with rfl | rfl | rfl
  · exact ⟨_, _, rfl, by decide, rfl, by decide⟩
  · exact ⟨_, _, rfl, by decide, rfl, by decide⟩
  · exact ⟨_, _, rfl, by decide, rfl, by decide⟩

/-- A Running machine at a height above 0, and one at height 0. -/
theorem witness_RunLengthIsBounded : (atPCWithStack 0x0FFE 0x2000 1 0x0002).runState = .running ∧
    (atPCWithStack 0x0FFE 0x2000 1 0x0002).sp.val = 1 ∧ State.reset.sp.val = 0 := by decide

end Sys2Proof.Tests
end

/-! The byte order of a fetched word (20_memory.md R53): the word as a number, its fields as quotients and remainders of
that number (30_encoding.md R71), and so the fields of a word of two bytes. -/

namespace Sys2Proof

/-! ### The fields of any word, as numbers (R71) -/

theorem fields_c_toNat (w : Word) : (fields w).c.toNat = w.toNat / 4096 := by
  have := w.isLt
  simp only [fields, BitVec.extractLsb'_toNat, Nat.shiftRight_eq_div_pow]
  omega

theorem fields_x_toNat (w : Word) : (fields w).x.toNat = w.toNat / 256 % 16 := by
  simp [fields, BitVec.extractLsb'_toNat, Nat.shiftRight_eq_div_pow]

theorem fields_y_toNat (w : Word) : (fields w).y.toNat = w.toNat / 16 % 16 := by
  simp [fields, BitVec.extractLsb'_toNat, Nat.shiftRight_eq_div_pow]

theorem fields_d_toNat (w : Word) : (fields w).d.toNat = w.toNat % 16 := by
  simp [fields]

theorem fields_kk_toNat (w : Word) : (fields w).kk.toNat = w.toNat % 256 := by
  simp [fields]

/-! ### A word made of two bytes (R53) -/

/-- The shifted high byte and the low byte share no bit, so their `|||` is a sum. -/
theorem wordOfBytes_toNat (high low : Byte) :
    (wordOfBytes high low).toNat = high.toNat * 256 + low.toNat := by
  have := high.isLt
  have := low.isLt
  have hhigh : high.toNat * 256 % 65536 = high.toNat * 256 := by omega
  have hlow : low.toNat % 65536 = low.toNat := by omega
  have hor : high.toNat <<< 8 ||| low.toNat = high.toNat <<< 8 + low.toNat :=
    (Nat.shiftLeft_add_eq_or_of_lt low.isLt high.toNat).symm
  simpa [wordOfBytes, Nat.shiftLeft_eq, hhigh, hlow] using hor

/-- The first byte's nibbles are `c` and `x`. -/
theorem fields_wordOfBytes_high (high low : Byte) :
    (fields (wordOfBytes high low)).c.toNat = high.toNat / 16 ∧
    (fields (wordOfBytes high low)).x.toNat = high.toNat % 16 := by
  have := low.isLt
  rw [fields_c_toNat, fields_x_toNat, wordOfBytes_toNat]
  omega

/-- The second byte's nibbles are `y` and `d`. -/
theorem fields_wordOfBytes_low (high low : Byte) :
    (fields (wordOfBytes high low)).y.toNat = low.toNat / 16 ∧
    (fields (wordOfBytes high low)).d.toNat = low.toNat % 16 := by
  have := low.isLt
  rw [fields_y_toNat, fields_d_toNat, wordOfBytes_toNat]
  omega

theorem fields_wordOfBytes_kk (high low : Byte) : (fields (wordOfBytes high low)).kk = low := by
  have := low.isLt
  apply BitVec.eq_of_toNat_eq
  rw [fields_kk_toNat, wordOfBytes_toNat]
  omega

end Sys2Proof

namespace Sys2Proof.Proofs

open Sys2Proof.Machine

/-- Settles O7: inside memory the fetch answers the word of the two bytes at the pc, whose value and fields the lemmas on
`wordOfBytes` give. -/
theorem fetchIsBigEndian : Obligations.FetchIsBigEndian := by
  intro s hpc
  obtain ⟨hc, hx⟩ := fields_wordOfBytes_high (s.mem.read s.pc.toNat) (s.mem.read (s.pc.toNat + 1))
  obtain ⟨hy, hd⟩ := fields_wordOfBytes_low (s.mem.read s.pc.toNat) (s.mem.read (s.pc.toNat + 1))
  have hfetch : s.fetch = some (wordOfBytes (s.mem.read s.pc.toNat) (s.mem.read (s.pc.toNat + 1))) :=
    State.fetch_eq_some_iff.2 ⟨hpc, rfl⟩
  exact ⟨_, hfetch, wordOfBytes_toNat .., hc, hx, hy, hd, fields_wordOfBytes_kk ..⟩

end Sys2Proof.Proofs

/-! The nibbles of a word and the dispatch table (30_encoding.md R72, R75): a word is the assembly of its nibbles, so a
row's mask and match compare nibble by nibble, and those comparisons are the tests that the decoder makes. -/

namespace Sys2Proof

/-! ### Nibbles to word and back (R72) -/

theorem fields_nnn_toNat (w : Word) : (fields w).nnn.toNat = w.toNat % 4096 := by
  simp [fields]

/-- A nibble shifted by at most 12 stays inside the word. -/
theorem shifted_nibble_toNat (n : Nibble) {k : Nat} (hk : k ≤ 12) :
    (n.setWidth 16 <<< k).toNat = n.toNat <<< k := by
  have hfit : n.toNat <<< k < 2 ^ 16 := by
    rw [Nat.shiftLeft_eq]
    calc n.toNat * 2 ^ k < 2 ^ 4 * 2 ^ k := Nat.mul_lt_mul_of_pos_right n.isLt (Nat.two_pow_pos k)
      _ ≤ 2 ^ 4 * 2 ^ 12 := Nat.mul_le_mul_left _ (Nat.pow_le_pow_right (by decide) hk)
  rw [BitVec.toNat_shiftLeft, BitVec.toNat_setWidth_of_le (by decide), Nat.mod_eq_of_lt hfit]

/-- The four shifted nibbles share no bit, so each `|||` is a sum. -/
theorem assemble_toNat (c x y d : Nibble) :
    (assemble c x y d).toNat = c.toNat * 4096 + x.toNat * 256 + y.toNat * 16 + d.toNat := by
  have := c.isLt
  have := x.isLt
  have := y.isLt
  have := d.isLt
  rw [assemble, BitVec.toNat_or, BitVec.toNat_or, BitVec.toNat_or, shifted_nibble_toNat c (by decide),
    shifted_nibble_toNat x (by decide), shifted_nibble_toNat y (by decide), BitVec.toNat_setWidth_of_le (by decide),
    Nat.or_assoc, Nat.or_assoc, ← Nat.shiftLeft_add_eq_or_of_lt (i := 4) (by omega),
    ← Nat.shiftLeft_add_eq_or_of_lt (i := 8) (by omega), ← Nat.shiftLeft_add_eq_or_of_lt (i := 12) (by omega)]
  omega

/-- A word is the assembly of its own nibbles. -/
theorem assemble_fields (w : Word) :
    assemble (fields w).c (fields w).x (fields w).y (fields w).d = w := by
  have := w.isLt
  apply BitVec.eq_of_toNat_eq
  rw [assemble_toNat, fields_c_toNat, fields_x_toNat, fields_y_toNat, fields_d_toNat]
  omega

/-- An assembled word has the nibbles it was assembled from. -/
theorem fields_assemble (c x y d : Nibble) :
    (fields (assemble c x y d)).c = c ∧ (fields (assemble c x y d)).x = x ∧
    (fields (assemble c x y d)).y = y ∧ (fields (assemble c x y d)).d = d := by
  have := c.isLt
  have := x.isLt
  have := y.isLt
  have := d.isLt
  simp only [← BitVec.toNat_inj, fields_c_toNat, fields_x_toNat, fields_y_toNat, fields_d_toNat, assemble_toNat]
  omega

/-- Two words are equal exactly when their nibbles are. -/
theorem word_eq_iff_nibbles {w u : Word} :
    w = u ↔ (fields w).c = (fields u).c ∧ (fields w).x = (fields u).x ∧
      (fields w).y = (fields u).y ∧ (fields w).d = (fields u).d := by
  refine ⟨fun h => h ▸ ⟨rfl, rfl, rfl, rfl⟩, fun ⟨hc, hx, hy, hd⟩ => ?_⟩
  rw [← assemble_fields w, ← assemble_fields u, hc, hx, hy, hd]

/-! ### A row's mask and match, nibble by nibble (R75) -/

/-- Field extraction commutes with `&&&`, so a mask acts on each nibble by itself. -/
theorem TableRow.selects_iff_nibbles {r : TableRow} {w : Word} : r.selects w = true ↔
    (fields w).c &&& (fields r.mask).c = (fields r.pattern).c ∧
    (fields w).x &&& (fields r.mask).x = (fields r.pattern).x ∧
    (fields w).y &&& (fields r.mask).y = (fields r.pattern).y ∧
    (fields w).d &&& (fields r.mask).d = (fields r.pattern).d := by
  rw [TableRow.selects, beq_iff_eq, word_eq_iff_nibbles]
  simp only [fields, BitVec.extractLsb'_and]

theorem nibble_and_ones (n : Nibble) : n &&& 0xF#4 = n := BitVec.and_allOnes

theorem haltRow_selects_iff {w : Word} : haltRow.selects w = true ↔
    (fields w).c = 0x0#4 ∧ (fields w).x = 0x0#4 ∧ (fields w).y = 0x0#4 ∧ (fields w).d = 0x0#4 := by
  have hmask : fields haltRow.mask = ⟨0xF, 0xF, 0xF, 0xF, 0xFFF, 0xFF⟩ := rfl
  have hpattern : fields haltRow.pattern = ⟨0x0, 0x0, 0x0, 0x0, 0x000, 0x00⟩ := rfl
  simp [TableRow.selects_iff_nibbles, hmask, hpattern, nibble_and_ones]

theorem returnRow_selects_iff {w : Word} : returnRow.selects w = true ↔
    (fields w).c = 0x0#4 ∧ (fields w).x = 0x0#4 ∧ (fields w).y = 0xE#4 ∧ (fields w).d = 0xE#4 := by
  have hmask : fields returnRow.mask = ⟨0xF, 0xF, 0xF, 0xF, 0xFFF, 0xFF⟩ := rfl
  have hpattern : fields returnRow.pattern = ⟨0x0, 0x0, 0xE, 0xE, 0x0EE, 0xEE⟩ := rfl
  simp [TableRow.selects_iff_nibbles, hmask, hpattern, nibble_and_ones]

theorem callRow_selects_iff {w : Word} : callRow.selects w = true ↔ (fields w).c = 0x2#4 := by
  have hmask : fields callRow.mask = ⟨0xF, 0x0, 0x0, 0x0, 0x000, 0x00⟩ := rfl
  have hpattern : fields callRow.pattern = ⟨0x2, 0x0, 0x0, 0x0, 0x000, 0x00⟩ := rfl
  simp [TableRow.selects_iff_nibbles, hmask, hpattern, nibble_and_ones]

theorem addRow_selects_iff {w : Word} : addRow.selects w = true ↔
    (fields w).c = 0x8#4 ∧ (fields w).d = 0x4#4 := by
  have hmask : fields addRow.mask = ⟨0xF, 0x0, 0x0, 0xF, 0x00F, 0x0F⟩ := rfl
  have hpattern : fields addRow.pattern = ⟨0x8, 0x0, 0x0, 0x4, 0x004, 0x04⟩ := rfl
  simp [TableRow.selects_iff_nibbles, hmask, hpattern, nibble_and_ones]

theorem wordLegal_iff {w : Word} : wordLegal w = true ↔
    haltRow.selects w = true ∨ returnRow.selects w = true ∨ callRow.selects w = true ∨ addRow.selects w = true := by
  simp [wordLegal, dispatchTable]

/-! ### The decoder on a selected word, and on any other (R75, R77) -/

theorem decode_of_haltRow {w : Word} (h : haltRow.selects w = true) : decode w = .ok .halt := by
  obtain ⟨hc, hx, hy, hd⟩ := haltRow_selects_iff.1 h
  simp [decode, hc, hx, hy, hd]

theorem decode_of_returnRow {w : Word} (h : returnRow.selects w = true) : decode w = .ok .ret := by
  obtain ⟨hc, hx, hy, hd⟩ := returnRow_selects_iff.1 h
  simp [decode, hc, hx, hy, hd]

theorem decode_of_callRow {w : Word} (h : callRow.selects w = true) : decode w = .ok (.call (fields w).nnn) := by
  simp [decode, callRow_selects_iff.1 h]

theorem decode_of_addRow {w : Word} (h : addRow.selects w = true) :
    decode w = .ok (.add (regOfNibble (fields w).x) (regOfNibble (fields w).y)) := by
  obtain ⟨hc, hd⟩ := addRow_selects_iff.1 h
  simp [decode, hc, hd]

/-- A word that the decoder accepts is selected by the row of its instruction. -/
theorem row_selects_of_decode_ok {w : Word} {i : Instr} (h : decode w = .ok i) : i.row.selects w = true := by
  rcases decode_ok_cases h with ⟨rfl, hn⟩ | ⟨rfl, hn⟩ | ⟨rfl, hn⟩ | ⟨rfl, hn⟩
  · exact haltRow_selects_iff.2 hn
  · exact returnRow_selects_iff.2 hn
  · exact callRow_selects_iff.2 hn
  · exact addRow_selects_iff.2 hn

theorem wordLegal_of_decode_ok {w : Word} {i : Instr} (h : decode w = .ok i) : wordLegal w = true := by
  have hrow := row_selects_of_decode_ok h
  rw [wordLegal_iff]
  cases i with
  | halt => exact .inl hrow
  | ret => exact .inr (.inl hrow)
  | call nnn => exact .inr (.inr (.inl hrow))
  | add x y => exact .inr (.inr (.inr hrow))

theorem decode_of_not_wordLegal {w : Word} (h : wordLegal w = false) :
    decode w = .error (.unimplementedOpcode w) := by
  cases hd : decode w with
  | error r => rw [decode_error_eq hd]
  | ok i => simp [wordLegal_of_decode_ok hd] at h

end Sys2Proof

namespace Sys2Proof.Proofs

/-- Settles O4: the assembled word is the weighted sum of its nibbles, and the fields are that sum's digits. -/
theorem reassemblyInvertsFields : Obligations.ReassemblyInvertsFields := by
  refine ⟨assemble_fields, fields_assemble, fun w => ?_⟩
  rw [fields_nnn_toNat, fields_kk_toNat, fields_x_toNat, fields_y_toNat, fields_d_toNat]
  omega

/-- Settles O5: each row's mask and match is the decoder's own test on the nibbles, and a word that the decoder accepts
is selected by its instruction's row. -/
theorem decoderFollowsDispatchTable : Obligations.DecoderFollowsDispatchTable := fun w =>
  ⟨decode_of_haltRow, decode_of_returnRow,
    fun h => ⟨_, fields_nnn_toNat w, decode_of_callRow h⟩,
    fun h => ⟨_, _, fields_x_toNat w, fields_y_toNat w, decode_of_addRow h⟩,
    decode_of_not_wordLegal⟩

end Sys2Proof.Proofs

/-! One step by the outcome of its fetch and its decoding (40_step_cycle.md R92), and the run state it leaves (R100). -/

namespace Sys2Proof

/-- `0x0000` is the one word of HALT. -/
theorem decode_eq_halt_iff {w : Word} : decode w = .ok .halt ↔ w = 0x0000#16 :=
  ⟨fun h => word_eq_iff_nibbles.2 (haltRow_selects_iff.1 (row_selects_of_decode_ok h)), fun h => h ▸ rfl⟩

/-- The decoder rejects exactly the words that no row selects. -/
theorem not_wordLegal_iff {w : Word} : wordLegal w = false ↔ decode w = .error (.unimplementedOpcode w) := by
  refine ⟨decode_of_not_wordLegal, fun h => ?_⟩
  cases hw : wordLegal w with
  | false => rfl
  | true =>
    rcases wordLegal_iff.1 hw with hrow | hrow | hrow | hrow
    · cases h.symm.trans (decode_of_haltRow hrow)
    · cases h.symm.trans (decode_of_returnRow hrow)
    · cases h.symm.trans (decode_of_callRow hrow)
    · cases h.symm.trans (decode_of_addRow hrow)

end Sys2Proof

namespace Sys2Proof.Machine

/-! ### The step by its fetch and its decoding (R92) -/

theorem step_of_fetch_none {s : State} (hr : s.runState = .running) (hf : s.fetch = none) :
    step s = .next (s.raise .outOfBoundsFetch s.pc none) := by
  simp [step_of_running hr, cycle, hf]

theorem step_of_not_wordLegal {s : State} {w : Word} (hr : s.runState = .running) (hf : s.fetch = some w)
    (hw : wordLegal w = false) : step s = .next (s.advance.raise .unimplementedOpcode s.pc (some w)) := by
  simp [step_of_running hr, cycle, hf, decode_of_not_wordLegal hw]

theorem step_of_decode_ok {s : State} {w : Word} {i : Instr} (hr : s.runState = .running) (hf : s.fetch = some w)
    (hd : decode w = .ok i) : step s = exec i s.advance := by
  simp [step_of_running hr, cycle, hf, hd]

/-! ### Every action and every step has a next state (R98) -/

theorem exists_exec_eq_next (i : Instr) (s : State) : ∃ t, exec i s = .next t := by
  cases i with
  | halt => exact ⟨_, rfl⟩
  | add x y => exact ⟨_, rfl⟩
  | ret => cases hpop : s.pop <;> simp [exec, execReturn, hpop]
  | call nnn => cases hpush : s.push s.pc <;> simp [exec, execCall, hpush]

theorem exists_step_eq_next (s : State) : ∃ t, step s = .next t := by
  by_cases hr : s.runState = .running
  · cases hf : s.fetch with
    | none => exact ⟨_, step_of_fetch_none hr hf⟩
    | some w =>
      cases hd : decode w with
      | ok i =>
        rw [step_of_decode_ok hr hf hd]
        exact exists_exec_eq_next i s.advance
      | error r =>
        have hw : wordLegal w = false := not_wordLegal_iff.2 (decode_error_eq hd ▸ hd)
        exact ⟨_, step_of_not_wordLegal hr hf hw⟩
  · exact ⟨s, step_of_not_running hr⟩

/-! ### The pc over an action (R94) -/

theorem exec_halt_pc {s t : State} (h : exec .halt s = .next t) : t.pc = s.pc := by
  obtain rfl : s.halt = t := Host.Outcome.next.inj h
  simp

theorem exec_add_pc {x y : RegIdx} {s t : State} (h : exec (.add x y) s = .next t) : t.pc = s.pc := by
  obtain rfl := Host.Outcome.next.inj h
  simp

/-! ### What the next step executes, and the run state it leaves (R100) -/

theorem State.nextInstr_of_decode_ok {s : State} {w : Word} {i : Instr} (hr : s.runState = .running)
    (hf : s.fetch = some w) (hd : decode w = .ok i) : s.nextInstr = some i :=
  State.nextInstr_eq_some_iff.2 ⟨hr, w, hf, hd⟩

theorem State.nextInstr_eq_halt_iff {s : State} (hr : s.runState = .running) :
    s.nextInstr = some .halt ↔ s.fetch = some 0x0000#16 := by
  simp [State.nextInstr_eq_some_iff, hr, decode_eq_halt_iff]

/-- A Running machine executes no instruction exactly when the fetch or the decoding fails. -/
theorem State.nextInstr_eq_none_iff {s : State} (hr : s.runState = .running) :
    s.nextInstr = none ↔ s.fetch = none ∨ ∃ w, s.fetch = some w ∧ wordLegal w = false := by
  cases hf : s.fetch with
  | none => simp [State.nextInstr, hr, hf]
  | some w =>
    cases hd : decode w with
    | ok i => simp [State.nextInstr_of_decode_ok hr hf hd, wordLegal_of_decode_ok hd]
    | error r =>
      obtain rfl := decode_error_eq hd
      simp [State.nextInstr, hr, hf, hd, not_wordLegal_iff, Except.toOption]

/-- The run state that a step of a Running machine leaves, by the instruction it executes: Halted exactly after HALT,
Faulted exactly when there is none, after CALL on a full stack and after RETURN on an empty one. -/
theorem step_runState_iff {s t : State} (hr : s.runState = .running) (h : step s = .next t) :
    (t.runState = .halted ↔ s.nextInstr = some .halt) ∧
    (t.runState = .faulted ↔ s.nextInstr = none ∨
      (∃ nnn, s.nextInstr = some (.call nnn) ∧ s.sp.val = Config.stackDepth) ∨
      (s.nextInstr = some .ret ∧ s.sp.val = 0)) := by
  cases step_effect h with
  | terminal hn => exact absurd hr hn
  | fetchFault _ hf => simp [(State.nextInstr_eq_none_iff hr).2 (.inl hf)]
  | illegal w _ hf hd => simp [(State.nextInstr_eq_none_iff hr).2 (.inr ⟨w, hf, not_wordLegal_iff.2 hd⟩)]
  | halt w _ hf hd => simp [State.nextInstr_of_decode_ok hr hf hd]
  | underflow w _ hf hd hsp => simp [State.nextInstr_of_decode_ok hr hf hd, hsp]
  | ret w _ hf hd hsp => simp [State.nextInstr_of_decode_ok hr hf hd, hr, hsp.ne']
  | overflow w nnn _ hf hd hsp => simp [State.nextInstr_of_decode_ok hr hf hd, hsp]
  | call w nnn _ hf hd hsp => simp [State.nextInstr_of_decode_ok hr hf hd, hr, hsp.ne]
  | add w x y _ hf hd => simp [State.nextInstr_of_decode_ok hr hf hd, hr]

end Sys2Proof.Machine

namespace Sys2Proof.Proofs

open Sys2Proof.Machine

/-- Settles O11: HALT's and ADD's actions keep the pc, and the step by its fetch and decoding gives the three other
clauses. -/
theorem pcHasThreeWriters : Obligations.PcHasThreeWriters := by
  refine ⟨fun i s t h hpc => ?_, fun s w i hr hf hd => step_of_decode_ok hr hf hd, fun s t w hr hf hw h => ?_,
    fun s t hr hf h => ?_⟩
  · cases i with
    | halt => exact absurd (exec_halt_pc h) hpc
    | ret => exact .inl rfl
    | call nnn => exact .inr ⟨nnn, rfl⟩
    | add x y => exact absurd (exec_add_pc h) hpc
  · obtain rfl := Host.Outcome.next.inj ((step_of_not_wordLegal hr hf hw).symm.trans h)
    simp
  · obtain rfl := Host.Outcome.next.inj ((step_of_fetch_none hr hf).symm.trans h)
    simp

/-- Settles O14: the run state after a step, read off the instruction executed; that there is one, and that it is HALT,
are facts of the fetched word. -/
theorem terminalConditionsExact : Obligations.TerminalConditionsExact := by
  intro s hr
  obtain ⟨t, ht⟩ := exists_step_eq_next s
  obtain ⟨hhalted, hfaulted⟩ := step_runState_iff hr ht
  rw [State.nextInstr_eq_halt_iff hr] at hhalted
  rw [State.nextInstr_eq_none_iff hr, or_assoc] at hfaulted
  exact ⟨t, ht, hhalted, hfaulted⟩

end Sys2Proof.Proofs

/-! HALT: what its action answers from any state, and what the step that fetches its word answers (41_halt.md R105, R106). -/

namespace Sys2Proof.Machine

theorem exec_halt_eq_next (s : State) : exec .halt s = .next s.halt := rfl

/-- The advance is the step's, the end of the run is HALT's. -/
theorem step_of_fetch_halt {s : State} (hr : s.runState = .running) (hf : s.fetch = some 0x0000#16) :
    step s = .next s.advance.halt := by
  rw [step_of_decode_ok hr hf (decode_eq_halt_iff.2 rfl), exec_halt_eq_next]

end Sys2Proof.Machine

namespace Sys2Proof.Proofs

open Sys2Proof.Machine

/-- Settles O15: HALT's action from any state, and the step by its fetch of the one word of HALT. -/
theorem haltEndsRunNormally : Obligations.HaltEndsRunNormally :=
  fun s => ⟨exec_halt_eq_next s, step_of_fetch_halt⟩

end Sys2Proof.Proofs

/-! RETURN: what its action answers from any state, on a stack that is not empty and on an empty one (42_return_call.md
R110). -/

namespace Sys2Proof.Machine

/-- RETURN with a live entry: the pop, and the popped entry in the pc. -/
theorem exec_ret_of_pos {s : State} (h : 0 < s.sp.val) : exec .ret s =
    .next { s with sp := ⟨s.sp.val - 1, by omega⟩, pc := s.stack[s.sp.val - 1] } := by
  simp only [exec, execReturn, State.pop_of_pos h, State.setPC]

theorem exec_ret_of_empty {s : State} (h : s.sp.val = 0) :
    exec .ret s = .next (s.raiseAt .stackUnderflow .ret) := by
  rw [exec, execReturn, State.pop_of_empty h]

end Sys2Proof.Machine

namespace Sys2Proof.Proofs

open Sys2Proof.Machine

/-- Settles O16: RETURN's action by the height of the stack on entry; the fault record it raises holds the instruction's
own address and the one word of RETURN. -/
theorem returnPopsOrUnderflows : Obligations.ReturnPopsOrUnderflows :=
  fun _ => ⟨fun hsp => exec_ret_of_pos (Nat.pos_of_ne_zero hsp), exec_ret_of_empty⟩

end Sys2Proof.Proofs

/-! ADD: the value of the sum and of the carry, what the action answers from any state, and what the two destinations hold
afterwards (43_add.md R125, R126, R129). -/

namespace Sys2Proof.Machine

/-! ### The sum and the carry on each side of 255 (R126) -/

theorem sumByte_toNat (a b : Byte) : (sumByte a b).toNat = (a.toNat + b.toNat) % 256 := by
  simp [sumByte, trueSum]

theorem sumByte_toNat_of_le {a b : Byte} (h : a.toNat + b.toNat ≤ 255) :
    (sumByte a b).toNat = a.toNat + b.toNat := by
  rw [sumByte_toNat, Nat.mod_eq_of_lt (Nat.lt_succ_of_le h)]

theorem carryByte_of_gt {a b : Byte} (h : a.toNat + b.toNat > 255) : carryByte a b = 0x01#8 := if_pos h

theorem carryByte_of_le {a b : Byte} (h : a.toNat + b.toNat ≤ 255) : carryByte a b = 0x00#8 := if_neg h.not_gt

/-! ### The action (R125, R128) -/

theorem exec_add_eq_next (x y : RegIdx) (s : State) : exec (.add x y) s =
    .next ((s.writeReg x (sumByte s.v[x] s.v[y])).writeFlag (carryByte s.v[x] s.v[y])) := rfl

theorem exec_add_flag {x y : RegIdx} {s t : State} (h : exec (.add x y) s = .next t) :
    t.v[15] = carryByte s.v[x] s.v[y] := by
  obtain rfl := Host.Outcome.next.inj ((exec_add_eq_next x y s).symm.trans h)
  simp

/-- A destination that the flag write does not touch keeps the sum. -/
theorem exec_add_dest {x y : RegIdx} {s t : State} (h : exec (.add x y) s = .next t) (hx : x ≠ 15) :
    t.v[x] = sumByte s.v[x] s.v[y] := by
  obtain rfl := Host.Outcome.next.inj ((exec_add_eq_next x y s).symm.trans h)
  have hne : Config.flagIndex.val ≠ x.val := Fin.val_ne_iff.2 hx.symm
  rw [State.writeFlag_v, State.writeReg_v, Fin.getElem_fin, Vector.getElem_set_ne _ _ hne, Vector.getElem_set_self]

theorem exec_add_runState {x y : RegIdx} {s t : State} (h : exec (.add x y) s = .next t) :
    t.runState = s.runState := by
  obtain rfl := Host.Outcome.next.inj ((exec_add_eq_next x y s).symm.trans h)
  simp

theorem exec_add_fault {x y : RegIdx} {s t : State} (h : exec (.add x y) s = .next t) : t.fault = s.fault := by
  obtain rfl := Host.Outcome.next.inj ((exec_add_eq_next x y s).symm.trans h)
  simp

/-! ### The step by the instruction it executes (R92) -/

theorem State.running_of_nextInstr {s : State} {i : Instr} (h : s.nextInstr = some i) : s.runState = .running :=
  (State.nextInstr_eq_some_iff.1 h).1

theorem step_of_nextInstr {s : State} {i : Instr} (h : s.nextInstr = some i) : step s = exec i s.advance := by
  obtain ⟨hr, w, hf, hd⟩ := State.nextInstr_eq_some_iff.1 h
  exact step_of_decode_ok hr hf hd

end Sys2Proof.Machine

namespace Sys2Proof.Proofs

open Sys2Proof.Machine

/-- Settles O22: ADD's two register writes, the flag's last. -/
theorem addWritesSumThenCarry : Obligations.AddWritesSumThenCarry := exec_add_eq_next

/-- Settles O23: register 15 holds the carry and any other destination the sum, whose values are known on each side of
255. -/
theorem flagIsCarryOfEveryAdd : Obligations.FlagIsCarryOfEveryAdd := by
  intro x y s
  obtain ⟨t, ht⟩ := exists_exec_eq_next (.add x y) s
  refine ⟨t, ht, fun hgt => ⟨?_, fun hx => ?_⟩, fun hle => ⟨?_, fun hx => ?_⟩⟩
  · rw [exec_add_flag ht, carryByte_of_gt hgt]
  · rw [exec_add_dest ht hx, sumByte_toNat]
  · rw [exec_add_flag ht, carryByte_of_le hle]
  · rw [exec_add_dest ht hx, sumByte_toNat_of_le hle]

/-- Settles O25: the step is ADD's action after the advance, and both keep RUN_STATE and FAULT. -/
theorem addNeverFaults : Obligations.AddNeverFaults := by
  intro s x y h
  obtain ⟨t, ht⟩ := exists_exec_eq_next (.add x y) s.advance
  refine ⟨t, (step_of_nextInstr h).trans ht, ?_, ?_⟩
  · rw [exec_add_runState ht, State.advance_runState, State.running_of_nextInstr h]
  · rw [exec_add_fault ht, State.advance_fault]

end Sys2Proof.Proofs

/-! The two stack faults (60_exceptions.md R143, R144): a CALL's record holds the word that was fetched, and a fault that
an action raises after the advance leaves the state that the spec's record names. -/

namespace Sys2Proof

/-- The class nibble and the target share no bit, so their `|||` is a sum. -/
theorem encode_call_toNat (nnn : Addr12) : (encode (.call nnn)).toNat = 0x2000 + nnn.toNat := by
  have hor : 2 ^ 12 * 2 + nnn.toNat = 2 ^ 12 * 2 ||| nnn.toNat := Nat.two_pow_add_eq_or_of_lt nnn.isLt 2
  rw [encode, BitVec.toNat_or, BitVec.toNat_setWidth_of_le (by decide)]
  exact hor.symm

/-- A word that decodes to a CALL is that CALL's one word (R81). -/
theorem encode_call_of_decode_ok {w : Word} {nnn : Addr12} (h : decode w = .ok (.call nnn)) :
    encode (.call nnn) = w := by
  have hrow : callRow.selects w = true := row_selects_of_decode_ok h
  have hclass : w.toNat / 4096 = 2 := by rw [← fields_c_toNat, callRow_selects_iff.1 hrow]; rfl
  obtain rfl : nnn = (fields w).nnn := by simpa using h.symm.trans (decode_of_callRow hrow)
  apply BitVec.eq_of_toNat_eq
  rw [encode_call_toNat, fields_nnn_toNat]
  omega

end Sys2Proof

namespace Sys2Proof.Machine

theorem exec_call_of_full {s : State} (h : s.sp.val = Config.stackDepth) (nnn : Addr12) :
    exec (.call nnn) s = .next (s.raiseAt .stackOverflow (.call nnn)) := by
  rw [exec, execCall, State.push_of_full h]

/-- A fault raised by an action of the step: the record has the address before the advance, and the pc keeps the advance. -/
theorem State.raiseAt_advance (s : State) (cause : FaultCause) (i : Instr) :
    s.advance.raiseAt cause i =
      { s with runState := .faulted, fault := ⟨cause, s.pc, some (encode i)⟩, pc := s.pc + 2#16 } := by
  rw [State.raiseAt, State.instrAddr_advance]
  rfl

end Sys2Proof.Machine

namespace Sys2Proof.Proofs

open Sys2Proof.Machine

/-- Settles O19: the action finds the stack full and raises; the word it records is the one fetched, a CALL having one
word. -/
theorem callOnFullStackOverflows : Obligations.CallOnFullStackOverflows := by
  intro s w nnn hr hf hd hsp
  have hfull : s.advance.sp.val = Config.stackDepth := hsp
  rw [step_of_decode_ok hr hf hd, exec_call_of_full hfull, State.raiseAt_advance, encode_call_of_decode_ok hd]

/-- Settles O20: the word fetched is RETURN's, and its action finds the stack empty and raises. -/
theorem returnOnEmptyStackUnderflows : Obligations.ReturnOnEmptyStackUnderflows := by
  intro s hr hf hsp
  have hd : decode 0x00EE#16 = .ok .ret := rfl
  have hempty : s.advance.sp.val = 0 := hsp
  rw [step_of_decode_ok hr hf hd, exec_ret_of_empty hempty, State.raiseAt_advance]
  rfl

end Sys2Proof.Proofs

/-! Decoding and encoding are inverse to each other (30_encoding.md R81, R82), so a word is legal exactly when it is some
instruction's word, and there are as many legal words as instructions (R76). -/

namespace Sys2Proof

/-! ### The nibbles of an encoding (R73) -/

/-- `x` and `y` stand between ADD's class and its selector. -/
theorem encode_add_eq_assemble (x y : RegIdx) :
    encode (.add x y) = assemble 0x8#4 (nibbleOfReg x) (nibbleOfReg y) 0x4#4 := by
  have hsplit : 0x8004#16 = (0x8#4).setWidth 16 <<< 12 ||| (0x4#4).setWidth 16 := by decide
  rw [encode, assemble, hsplit]
  ac_rfl

/-- The target is below the class nibble. -/
theorem fields_encode_call (nnn : Addr12) :
    (fields (encode (.call nnn))).c = 0x2#4 ∧ (fields (encode (.call nnn))).nnn = nnn := by
  have := nnn.isLt
  simp only [← BitVec.toNat_inj, fields_c_toNat, fields_nnn_toNat, encode_call_toNat]
  refine ⟨?_, by omega⟩
  rw [show (0x2#4).toNat = 2 from rfl]
  omega

/-! ### The two round trips (R81, R82) -/

theorem decode_encode (i : Instr) : decode (encode i) = .ok i := by
  cases i with
  | halt => rfl
  | ret => rfl
  | call nnn =>
    obtain ⟨hc, hnnn⟩ := fields_encode_call nnn
    rw [decode_of_callRow (callRow_selects_iff.2 hc), hnnn]
  | add x y =>
    obtain ⟨hc, hx, hy, hd⟩ := fields_assemble 0x8#4 (nibbleOfReg x) (nibbleOfReg y) 0x4#4
    rw [encode_add_eq_assemble, decode_of_addRow (addRow_selects_iff.2 ⟨hc, hd⟩), hx, hy, regOfNibble_nibbleOfReg,
      regOfNibble_nibbleOfReg]

theorem encode_of_decode_ok {w : Word} {i : Instr} (h : decode w = .ok i) : encode i = w := by
  rcases decode_ok_cases h with ⟨rfl, -⟩ | ⟨rfl, hn⟩ | ⟨rfl, -⟩ | ⟨rfl, hc, hd⟩
  · exact (decode_eq_halt_iff.1 h).symm
  · exact (word_eq_iff_nibbles.2 hn).symm
  · exact encode_call_of_decode_ok h
  · rw [encode_add_eq_assemble, nibbleOfReg_regOfNibble, nibbleOfReg_regOfNibble, ← hc, ← hd, assemble_fields]

theorem encode_injective : Function.Injective encode := fun i j h =>
  Except.ok.inj ((decode_encode i).symm.trans ((congrArg decode h).trans (decode_encode j)))

/-! ### The rows and the legal words (R76, R77) -/

theorem exists_decode_ok_of_selects {r : TableRow} {w : Word} (hr : r ∈ dispatchTable) (h : r.selects w = true) :
    ∃ i : Instr, decode w = .ok i ∧ i.row = r := by
  have hrows : r = haltRow ∨ r = returnRow ∨ r = callRow ∨ r = addRow := by simpa [dispatchTable] using hr
  rcases hrows with rfl | rfl | rfl | rfl
  · exact ⟨_, decode_of_haltRow h, rfl⟩
  · exact ⟨_, decode_of_returnRow h, rfl⟩
  · exact ⟨_, decode_of_callRow h, rfl⟩
  · exact ⟨_, decode_of_addRow h, rfl⟩

/-- A word decodes in one way, so it has one row. -/
theorem row_eq_of_selects {r q : TableRow} {w : Word} (hr : r ∈ dispatchTable) (hq : q ∈ dispatchTable)
    (hrw : r.selects w = true) (hqw : q.selects w = true) : r = q := by
  obtain ⟨i, hi, rfl⟩ := exists_decode_ok_of_selects hr hrw
  obtain ⟨j, hj, rfl⟩ := exists_decode_ok_of_selects hq hqw
  obtain rfl : i = j := Except.ok.inj (hi.symm.trans hj)
  rfl

theorem dispatchTable_pairwise_disjoint :
    dispatchTable.Pairwise (fun r q => ∀ w : Word, ¬ (r.selects w = true ∧ q.selects w = true)) := by
  have hnodup : dispatchTable.Pairwise (· ≠ ·) := by decide
  exact hnodup.imp_of_mem fun hr hq hne w ⟨hrw, hqw⟩ => hne (row_eq_of_selects hr hq hrw hqw)

theorem wordLegal_iff_exists_encode {w : Word} : wordLegal w = true ↔ ∃ i, encode i = w := by
  refine ⟨fun h => ?_, fun ⟨i, hi⟩ => hi ▸ wordLegal_of_decode_ok (decode_encode i)⟩
  obtain ⟨r, hr, hrw⟩ := List.any_eq_true.1 h
  obtain ⟨i, hi, -⟩ := exists_decode_ok_of_selects hr hrw
  exact ⟨i, encode_of_decode_ok hi⟩

/-! ### Counting the instructions (R76) -/

/-- HALT, RETURN, the CALLs by target and the ADDs by operands: the instructions, as a type that can be counted. -/
abbrev InstrShape := Unit ⊕ Unit ⊕ Fin 4096 ⊕ RegIdx × RegIdx

def InstrShape.toInstr : InstrShape → Instr
  | .inl _ => .halt
  | .inr (.inl _) => .ret
  | .inr (.inr (.inl n)) => .call ⟨n⟩
  | .inr (.inr (.inr (x, y))) => .add x y

def Instr.shape : Instr → InstrShape
  | .halt => .inl ()
  | .ret => .inr (.inl ())
  | .call nnn => .inr (.inr (.inl nnn.toFin))
  | .add x y => .inr (.inr (.inr (x, y)))

theorem Instr.toInstr_shape (i : Instr) : i.shape.toInstr = i := by
  cases i with
  | halt | ret | call | add => rfl

theorem InstrShape.shape_toInstr : Function.LeftInverse Instr.shape InstrShape.toInstr
  | .inl _ | .inr (.inl _) | .inr (.inr (.inl _)) | .inr (.inr (.inr _)) => rfl

/-- The number of an instruction's word. -/
def InstrShape.wordNat (i : InstrShape) : Nat := (encode i.toInstr).toNat

theorem InstrShape.wordNat_injective : Function.Injective InstrShape.wordNat := fun _ _ h =>
  InstrShape.shape_toInstr.injective (encode_injective (BitVec.eq_of_toNat_eq h))

/-- The legal numbers are the words of the instructions. -/
theorem filter_wordLegal_eq_image : (Finset.range 65536).filter (fun n => wordLegal (BitVec.ofNat 16 n) = true) =
    Finset.univ.image InstrShape.wordNat := by
  ext n
  simp only [Finset.mem_filter, Finset.mem_range, Finset.mem_image, Finset.mem_univ, true_and,
    wordLegal_iff_exists_encode]
  constructor
  · rintro ⟨hn, i, hi⟩
    exact ⟨i.shape, by rw [InstrShape.wordNat, Instr.toInstr_shape, hi, BitVec.toNat_ofNat, Nat.mod_eq_of_lt hn]⟩
  · rintro ⟨s, rfl⟩
    exact ⟨(encode s.toInstr).isLt, s.toInstr, by rw [InstrShape.wordNat, BitVec.ofNat_toNat, BitVec.setWidth_eq]⟩

/-- A filtered range as a list and as a finite set. -/
theorem length_filter_range (p : Nat → Bool) (n : Nat) :
    ((List.range n).filter p).length = ((Finset.range n).filter (fun k => p k = true)).card := by
  rw [← Nat.count_eq_card_filter_range, Nat.count, List.countP_eq_length_filter]
  simp

theorem card_instrShape : Fintype.card InstrShape = 4354 := by
  simp [Config.nregs]

end Sys2Proof

namespace Sys2Proof.Proofs

/-- Settles O2: one lemma on words, and the two bytes of a word compose to it again. -/
theorem decodeEncodeRoundTrip : Obligations.DecodeEncodeRoundTrip := by
  intro i
  refine ⟨decode_encode i, fun rest => ?_⟩
  rw [encodeBytes, List.cons_append, List.cons_append, List.nil_append, decodeBytes_bytes, decode_encode]

/-- Settles O3: the nibbles that select the instruction are those of its encoding. -/
theorem decodedWordIsItsEncoding : Obligations.DecodedWordIsItsEncoding := fun _ _ => encode_of_decode_ok

/-- Settles O6: a word has one row because it has one decoding, and the legal words are counted by the instructions,
1 + 1 + 4096 + 256. -/
theorem rowsDisjointAndCounted : Obligations.RowsDisjointAndCounted := by
  refine ⟨dispatchTable_pairwise_disjoint, ?_⟩
  rw [length_filter_range, filter_wordLegal_eq_image,
    Finset.card_image_of_injective _ InstrShape.wordNat_injective, Finset.card_univ, card_instrShape]

/-- Settles O1: the words of the vectors, decoded one by one. -/
theorem exampleWordsDecode : Obligations.ExampleWordsDecode := ⟨rfl, rfl, rfl, rfl, rfl, rfl, rfl, rfl, rfl⟩

end Sys2Proof.Proofs

/-! What a step does to the pc, to the live stack entries and to memory, read off its nine effects once; every invariant of
the machine follows (10_state.md R43 to R46, 42_return_call.md R115). -/

namespace Sys2Proof.Machine

/-! ### The advance and the call target as numbers (R31, R114) -/

/-- After a fetch the advance does not wrap, and it stays inside memory or at its end. -/
theorem State.advanced_pc_toNat {s : State} {w : Word} (hf : s.fetch = some w) :
    (s.pc + 2#16).toNat = s.pc.toNat + 2 ∧ s.pc.toNat + 2 ≤ 4096 := by
  obtain ⟨hpc, -⟩ := State.fetch_eq_some_iff.1 hf
  refine ⟨?_, by omega⟩
  rw [BitVec.toNat_add, BitVec.toNat_ofNat]
  omega

theorem callTarget_toNat (nnn : Addr12) : (callTarget nnn).toNat = nnn.toNat :=
  BitVec.toNat_setWidth_of_le (by decide)

theorem add_two_even {p : Word} (h : p.toNat % 2 = 0) : (p + 2#16).toNat % 2 = 0 := by
  rw [BitVec.toNat_add, BitVec.toNat_ofNat]
  omega

/-! ### What a step does, part by part -/

/-- A step leaves memory alone (R51). -/
theorem step_mem {s t : State} (h : step s = .next t) : t.mem = s.mem := by
  cases step_effect h with
  | terminal | fetchFault | illegal | halt | underflow | ret | overflow | call | add => rfl

/-- The pc after a step: kept, advanced after a fetch, a live entry, or a CALL's target (R29, R94). -/
theorem step_pc_cases {s t : State} (h : step s = .next t) :
    (t.pc = s.pc ∧ (s.runState ≠ .running ∨ t.runState = .faulted)) ∨
    (t.pc = s.pc + 2#16 ∧ ∃ w, s.fetch = some w) ∨
    (∃ i : Fin Config.stackDepth, i.val < s.sp.val ∧ t.pc = s.stack[i]) ∨
    (∃ nnn, s.nextInstr = some (.call nnn) ∧ t.pc = callTarget nnn) := by
  cases step_effect h with
  | terminal hr => exact .inl ⟨rfl, .inl hr⟩
  | fetchFault => exact .inl ⟨rfl, .inr rfl⟩
  | illegal w _ hf | halt w _ hf | underflow w _ hf | overflow w _ _ hf | add w _ _ _ hf =>
    exact .inr (.inl ⟨rfl, w, hf⟩)
  | ret w hr hf hd hsp =>
    have := s.sp.isLt
    exact .inr (.inr (.inl ⟨⟨s.sp.val - 1, by omega⟩, Nat.sub_lt hsp Nat.one_pos, rfl⟩))
  | call w nnn hr hf hd hsp => exact .inr (.inr (.inr ⟨nnn, State.nextInstr_of_decode_ok hr hf hd, rfl⟩))

/-- A live entry after a step was live before, with the same content, or it is the return point that a CALL pushed (R34,
R112). -/
theorem step_live_entry {s t : State} (h : step s = .next t) {i : Fin Config.stackDepth} (hi : i.val < t.sp.val) :
    (i.val < s.sp.val ∧ t.stack[i] = s.stack[i]) ∨ (t.stack[i] = s.pc + 2#16 ∧ ∃ w, s.fetch = some w) := by
  cases step_effect h with
  | terminal | fetchFault | illegal | halt | underflow | overflow | add => exact .inl ⟨hi, rfl⟩
  | ret => exact .inl ⟨Nat.lt_of_lt_of_le hi (Nat.sub_le ..), rfl⟩
  | call w nnn hr hf hd hsp =>
    rcases Nat.lt_succ_iff_lt_or_eq.1 hi with hlt | heq
    · exact .inl ⟨hlt, Vector.getElem_set_ne hsp _ hlt.ne'⟩
    · refine .inr ⟨?_, w, hf⟩
      simp [heq]

/-- A live entry stays, unless the step is the RETURN that pops it (R35, R115). -/
theorem step_keeps_live_entry {s t : State} (h : step s = .next t) {i : Fin Config.stackDepth}
    (hi : i.val < s.sp.val) (hpop : ¬ (s.nextInstr = some .ret ∧ s.sp.val = i.val + 1)) :
    i.val < t.sp.val ∧ t.stack[i] = s.stack[i] := by
  cases step_effect h with
  | terminal | fetchFault | illegal | halt | underflow | overflow | add => exact ⟨hi, rfl⟩
  | ret w hr hf hd =>
    have hne : s.sp.val ≠ i.val + 1 := fun heq => hpop ⟨State.nextInstr_of_decode_ok hr hf hd, heq⟩
    refine ⟨?_, rfl⟩
    show i.val < s.sp.val - 1
    omega
  | call _ _ _ _ _ hsp => exact ⟨Nat.lt_succ_of_lt hi, Vector.getElem_set_ne hsp _ hi.ne'⟩

/-- SP moves by a RETURN with a live entry and by a CALL with a free one, and a CALL alone writes an entry (R34). -/
theorem step_stack_cases {s t : State} (h : step s = .next t) :
    (t.stack = s.stack ∧ t.sp = s.sp) ∨
    (s.nextInstr = some .ret ∧ t.stack = s.stack ∧ t.sp.val + 1 = s.sp.val) ∨
    (∃ nnn, s.nextInstr = some (.call nnn) ∧ t.sp.val = s.sp.val + 1) := by
  cases step_effect h with
  | terminal | fetchFault | illegal | halt | underflow | overflow | add => exact .inl ⟨rfl, rfl⟩
  | ret w hr hf hd hsp =>
    exact .inr (.inl ⟨State.nextInstr_of_decode_ok hr hf hd, rfl, Nat.sub_add_cancel hsp⟩)
  | call w nnn hr hf hd => exact .inr (.inr ⟨nnn, State.nextInstr_of_decode_ok hr hf hd, rfl⟩)

end Sys2Proof.Machine

namespace Sys2Proof.Safety

open Sys2Proof.Machine

/-! ### The invariant (R44) -/

theorem step_keeps_faultRecordSound {s t : State} (hs : FaultRecordSound s) (h : step s = .next t) :
    FaultRecordSound t := by
  obtain ⟨hcause, hword⟩ := hs
  cases step_effect h with
  | terminal => exact ⟨hcause, hword⟩
  | fetchFault | illegal | underflow | overflow => constructor <;> simp
  | halt _ hr | ret _ hr | call _ _ hr | add _ _ _ hr =>
    have hnone : s.fault.cause = .noFault := hcause.2 (by simp [hr])
    exact ⟨by simp [hnone, hr], hword⟩

/-- What a CALL pushes is between 2 and MEM_SIZE because its fetch was inside memory. -/
theorem step_keeps_liveEntriesInRange {s t : State} (hs : LiveEntriesInRange s) (h : step s = .next t) :
    LiveEntriesInRange t := by
  intro i hi
  rcases step_live_entry h hi with ⟨hlive, heq⟩ | ⟨heq, w, hf⟩
  · rw [heq]
    exact hs i hlive
  · obtain ⟨hpc, hle⟩ := State.advanced_pc_toNat hf
    rw [heq, hpc]
    exact ⟨Nat.le_add_left 2 _, hle⟩

theorem step_keeps_inv {s t : State} (hs : Inv s) (h : step s = .next t) : Inv t where
  memory := step_mem h ▸ hs.memory
  record := step_keeps_faultRecordSound hs.record h
  entries := step_keeps_liveEntriesInRange hs.entries h

/-! ### Evenness (R46) -/

theorem step_keeps_pcEven {s t : State} (hs : PCEven s) (hcall : NextCallEven s) (h : step s = .next t) :
    PCEven t where
  pc := by
    rcases step_pc_cases h with ⟨hpc, -⟩ | ⟨hpc, -⟩ | ⟨i, hi, hpc⟩ | ⟨nnn, hnext, hpc⟩
    · rw [hpc]
      exact hs.pc
    · rw [hpc]
      exact add_two_even hs.pc
    · rw [hpc]
      exact hs.entries i hi
    · rw [hpc, callTarget_toNat]
      exact hcall nnn hnext
  entries := by
    intro i hi
    rcases step_live_entry h hi with ⟨hlive, heq⟩ | ⟨heq, -⟩
    · rw [heq]
      exact hs.entries i hlive
    · rw [heq]
      exact add_two_even hs.pc

end Sys2Proof.Safety

namespace Sys2Proof.Proofs

open Sys2Proof.Machine Sys2Proof.Safety

/-- Settles O45: memory is kept, each fault writes a sound record, and the one entry that a step can add is an advanced
pc. -/
theorem stepKeepsInvariant : Obligations.StepKeepsInvariant := fun _ _ => step_keeps_inv

/-- Settles O48: the pc is kept, advanced, taken from a live entry or from a CALL, and a new entry is an advanced pc. -/
theorem evenProgramsStayEven : Obligations.EvenProgramsStayEven := fun _ _ => step_keeps_pcEven

/-- Settles O57: a CALL writes above every live entry, and a RETURN uncovers the newest alone. -/
theorem liveEntryKeptUntilItsReturn : Obligations.LiveEntryKeptUntilItsReturn := by
  rintro s t i e ⟨hi, rfl⟩ hpop h
  exact step_keeps_live_entry h hi hpop

/-- Settles O31, by the nine effects of a step. -/
theorem memoryNeverChanges : Obligations.MemoryNeverChanges := fun _ _ => step_mem

/-- Settles O32: outside CALL and RETURN both are kept, and RETURN keeps the entries. -/
theorem onlyCallAndReturnTouchStack : Obligations.OnlyCallAndReturnTouchStack := by
  intro s t h
  rcases step_stack_cases h with ⟨hstack, hsp⟩ | ⟨hret, hstack, hsp⟩ | ⟨nnn, hcall, hsp⟩
  · exact ⟨absurd hstack, absurd hsp⟩
  · exact ⟨absurd hstack, fun _ => .inl ⟨hret, hsp⟩⟩
  · exact ⟨fun _ => ⟨nnn, hcall⟩, fun _ => .inr ⟨nnn, hcall, hsp⟩⟩

/-- Settles O47: without a fault the pc is advanced after a fetch, a live entry, which the invariant bounds, or a 12-bit
target. -/
theorem pcBoundAfterStep : Obligations.PcBoundAfterStep := by
  intro s t hs hr h hfaulted
  rcases step_pc_cases h with ⟨-, hkept⟩ | ⟨hpc, w, hf⟩ | ⟨i, hi, hpc⟩ | ⟨nnn, -, hpc⟩
  · exact absurd hkept (by simp [hr, hfaulted])
  · obtain ⟨hadd, hle⟩ := State.advanced_pc_toNat hf
    rw [hpc, hadd]
    exact hle
  · rw [hpc]
    exact (hs.entries i hi).2
  · rw [hpc, callTarget_toNat]
    exact nnn.isLt.le

/-- Settles O56: the step lemma of evenness along the run; at launch no entry is live. -/
theorem evenLaunchKeepsPcEven : Obligations.EvenLaunchKeepsPcEven := by
  intro s t k hs heven
  have hempty : s.sp = 0 := hs.stackEmpty
  have hstart : PCEven s := ⟨heven.pc, fun i hi => absurd hi (by simp [hempty])⟩
  exact run_induction hstart (fun j u v hu hPu hv => step_keeps_pcEven hPu (heven.calls j u hu) hv) k t

end Sys2Proof.Proofs

/-! What an action can do, said once, and the effects and frames of HALT, RETURN, CALL and ADD (41_halt.md, 42_return_call.md,
43_add.md; 10_state.md section 3). -/

namespace Sys2Proof.Machine

/-! ### The six things an action can do (R105, R110, R112, R125, R143, R144) -/

/-- CALL with a free entry: the return point is pushed and the pc goes to the target. -/
theorem exec_call_of_lt {s : State} (h : s.sp.val < Config.stackDepth) (nnn : Addr12) : exec (.call nnn) s =
    .next { s with
      stack := s.stack.set s.sp.val s.pc, sp := ⟨s.sp.val + 1, Nat.succ_lt_succ h⟩, pc := callTarget nnn } := by
  simp only [exec, execCall, State.push_of_lt h, State.setPC]

/-- What the action of an instruction does to the state it finds, with the state it leaves. -/
inductive ActionEffect (s : State) : Instr → State → Prop where
  | halt : ActionEffect s .halt s.halt
  | underflow (h : s.sp.val = 0) : ActionEffect s .ret (s.raiseAt .stackUnderflow .ret)
  | ret (h : 0 < s.sp.val) :
      ActionEffect s .ret { s with sp := ⟨s.sp.val - 1, by omega⟩, pc := s.stack[s.sp.val - 1] }
  | overflow (nnn : Addr12) (h : s.sp.val = Config.stackDepth) :
      ActionEffect s (.call nnn) (s.raiseAt .stackOverflow (.call nnn))
  | call (nnn : Addr12) (h : s.sp.val < Config.stackDepth) :
      ActionEffect s (.call nnn) { s with
        stack := s.stack.set s.sp.val s.pc, sp := ⟨s.sp.val + 1, Nat.succ_lt_succ h⟩, pc := callTarget nnn }
  | add (x y : RegIdx) :
      ActionEffect s (.add x y) ((s.writeReg x (sumByte s.v[x] s.v[y])).writeFlag (carryByte s.v[x] s.v[y]))

theorem ActionEffect.exec_eq {s t : State} {i : Instr} (e : ActionEffect s i t) : exec i s = .next t := by
  cases e with
  | halt => exact exec_halt_eq_next s
  | underflow h => exact exec_ret_of_empty h
  | ret h => exact exec_ret_of_pos h
  | overflow nnn h => exact exec_call_of_full h nnn
  | call nnn h => exact exec_call_of_lt h nnn
  | add x y => exact exec_add_eq_next x y s

theorem exists_actionEffect (i : Instr) (s : State) : ∃ t, ActionEffect s i t := by
  cases i with
  | halt => exact ⟨_, .halt⟩
  | ret => exact (Nat.eq_zero_or_pos s.sp.val).elim (fun h => ⟨_, .underflow h⟩) (fun h => ⟨_, .ret h⟩)
  | call nnn =>
    exact (Nat.lt_or_eq_of_le (Nat.le_of_lt_succ s.sp.isLt)).elim (fun h => ⟨_, .call nnn h⟩)
      (fun h => ⟨_, .overflow nnn h⟩)
  | add x y => exact ⟨_, .add x y⟩

theorem exec_eq_next_iff {i : Instr} {s t : State} : exec i s = .next t ↔ ActionEffect s i t := by
  refine ⟨fun h => ?_, ActionEffect.exec_eq⟩
  obtain ⟨u, hu⟩ := exists_actionEffect i s
  obtain rfl : u = t := Host.Outcome.next.inj (hu.exec_eq.symm.trans h)
  exact hu

/-! ### The registers over an action (R23) -/

/-- ADD writes no register but its destination and the flag. -/
theorem exec_add_reg_of_ne {x y i : RegIdx} {s t : State} (h : exec (.add x y) s = .next t) (hx : i ≠ x)
    (hflag : i ≠ 15) : t.v[i] = s.v[i] := by
  obtain rfl := Host.Outcome.next.inj ((exec_add_eq_next x y s).symm.trans h)
  have h15 : Config.flagIndex.val ≠ i.val := Fin.val_ne_iff.2 hflag.symm
  have hdest : x.val ≠ i.val := Fin.val_ne_iff.2 hx.symm
  rw [State.writeFlag_v, State.writeReg_v, Fin.getElem_fin, Vector.getElem_set_ne _ _ h15,
    Vector.getElem_set_ne _ _ hdest, Fin.getElem_fin]

/-- HALT, RETURN and CALL leave the register file, and find no use for it: with another one they do the same. -/
theorem exec_ignores_registers {i : Instr} {s t : State} (hi : ∀ x y, i ≠ .add x y) (h : exec i s = .next t)
    (v' : Vector Byte Config.nregs) : t.v = s.v ∧ exec i { s with v := v' } = .next { t with v := v' } := by
  cases exec_eq_next_iff.1 h with
  | halt => exact ⟨rfl, exec_halt_eq_next _⟩
  | underflow hsp => exact ⟨rfl, exec_ret_of_empty hsp⟩
  | ret hsp => exact ⟨rfl, exec_ret_of_pos (s := { s with v := v' }) hsp⟩
  | overflow nnn hsp => exact ⟨rfl, exec_call_of_full (s := { s with v := v' }) hsp nnn⟩
  | call nnn hsp => exact ⟨rfl, exec_call_of_lt (s := { s with v := v' }) hsp nnn⟩
  | add x y => exact absurd rfl (hi x y)

/-! ### Sum and carry as arithmetic (R126, R127) -/

theorem carryByte_toNat (a b : Byte) : (carryByte a b).toNat = (a.toNat + b.toNat) / 256 := by
  have := a.isLt
  have := b.isLt
  rcases Nat.lt_or_ge 255 (a.toNat + b.toNat) with h | h
  · rw [carryByte_of_gt h, BitVec.toNat_ofNat]
    omega
  · rw [carryByte_of_le h, BitVec.toNat_ofNat]
    omega

theorem carryByte_zero_or_one (a b : Byte) : carryByte a b = 0#8 ∨ carryByte a b = 1#8 :=
  (Nat.lt_or_ge 255 (a.toNat + b.toNat)).elim (fun h => .inr (carryByte_of_gt h)) (fun h => .inl (carryByte_of_le h))

theorem sumByte_eq_add (a b : Byte) : sumByte a b = a + b := by
  apply BitVec.eq_of_toNat_eq
  rw [sumByte_toNat, BitVec.toNat_add]

theorem carryByte_comm (a b : Byte) : carryByte a b = carryByte b a := by
  rw [carryByte, carryByte, trueSum, trueSum, Nat.add_comm]

theorem exec_add_flag_toNat {x y : RegIdx} {s t : State} (h : exec (.add x y) s = .next t) :
    t.v[15].toNat = (s.v[x].toNat + s.v[y].toNat) / 256 := by
  rw [exec_add_flag h, carryByte_toNat]

theorem exec_add_dest_toNat {x y : RegIdx} {s t : State} (h : exec (.add x y) s = .next t) (hx : x ≠ 15) :
    t.v[x].toNat = (s.v[x].toNat + s.v[y].toNat) % 256 := by
  rw [exec_add_dest h hx, sumByte_toNat]

/-! ### The step of a CALL and of a RETURN (R110, R112) -/

theorem step_of_nextInstr_call {s : State} {nnn : Addr12} (h : s.nextInstr = some (.call nnn))
    (hsp : s.sp.val < Config.stackDepth) : step s = .next { s with
      stack := s.stack.set s.sp.val (s.pc + 2#16), sp := ⟨s.sp.val + 1, Nat.succ_lt_succ hsp⟩,
      pc := callTarget nnn } :=
  (step_of_nextInstr h).trans (exec_call_of_lt (s := s.advance) hsp nnn)

theorem step_of_nextInstr_ret {s : State} (h : s.nextInstr = some .ret) (hsp : 0 < s.sp.val) :
    step s = .next { s with sp := ⟨s.sp.val - 1, by omega⟩, pc := s.stack[s.sp.val - 1] } :=
  (step_of_nextInstr h).trans (exec_ret_of_pos (s := s.advance) hsp)

/-- The pop of a stack of known height. -/
theorem exists_step_of_nextInstr_ret {s : State} {h : Fin Config.stackDepth} (hret : s.nextInstr = some .ret)
    (hsp : s.sp.val = h.val + 1) : ∃ t, step s = .next t ∧ t.pc = s.stack[h] ∧ t.sp.val = h.val := by
  refine ⟨_, step_of_nextInstr_ret hret (hsp ▸ Nat.succ_pos _), ?_, ?_⟩
  · simp [hsp]
  · exact Nat.sub_eq_of_eq_add hsp

/-! ### Steps, by the registers (R23, R44 item 5) -/

theorem step_v_of_not_add {s t : State} (h : step s = .next t) (hadd : ∀ x y, s.nextInstr ≠ some (.add x y)) :
    t.v = s.v := by
  cases step_effect h with
  | terminal | fetchFault | illegal | halt | underflow | ret | overflow | call => rfl
  | add w x y hr hf hd => exact absurd (State.nextInstr_of_decode_ok hr hf hd) (hadd x y)

theorem step_flag_of_add {s t : State} {x y : RegIdx} (h : step s = .next t) (hadd : s.nextInstr = some (.add x y)) :
    t.v[15] = carryByte s.v[x] s.v[y] :=
  exec_add_flag (s := s.advance) ((step_of_nextInstr hadd).symm.trans h)

/-! ### Runs (R115) -/

/-- Along a run a live entry stays as long as no step is the RETURN that pops it. -/
theorem run_keeps_live_entry {i : Fin Config.stackDepth} {k : Nat} {s t : State} (hi : i.val < s.sp.val)
    (hk : core.run k s = .next t)
    (hpop : ∀ j u, j < k → core.run j s = .next u → ¬ (u.nextInstr = some .ret ∧ u.sp.val = i.val + 1)) :
    i.val < t.sp.val ∧ t.stack[i] = s.stack[i] := by
  induction k generalizing s with
  | zero =>
    obtain rfl := Host.Outcome.next.inj hk
    exact ⟨hi, rfl⟩
  | succ k ih =>
    obtain ⟨u, hu, hrest⟩ := run_succ_eq_next_iff.1 hk
    obtain ⟨hlive, heq⟩ := step_keeps_live_entry hu hi (hpop 0 s (Nat.succ_pos k) rfl)
    obtain ⟨hlast, hsame⟩ := ih hlive hrest fun j v hj hv =>
      hpop (j + 1) v (Nat.succ_lt_succ hj) (run_succ_eq_next_iff.2 ⟨u, hu, hv⟩)
    exact ⟨hlast, hsame.trans heq⟩

end Sys2Proof.Machine

namespace Sys2Proof.Proofs

open Sys2Proof.Machine

/-- Settles O17, by CALL's action on a stack with a free entry. -/
theorem callPushesAndRedirects : Obligations.CallPushesAndRedirects := fun nnn _ h => exec_call_of_lt h nnn

/-- Settles O18: the action pushes the advanced pc at index SP. -/
theorem callSavesAddressPlusTwo : Obligations.CallSavesAddressPlusTwo := by
  intro s nnn h hcall
  exact ⟨_, step_of_nextInstr_call hcall h, rfl, Vector.getElem_set_self h,
    fun i hi => Vector.getElem_set_ne h _ (Ne.symm hi)⟩

/-- Settles O21: the CALL saves its return point in the entry at height `h`, the run keeps that entry until the RETURN at
height `h + 1`, and that RETURN pops it. -/
theorem callReturnPairing : Obligations.CallReturnPairing := by
  intro s c t nnn k hcall hsp hc hk hpop hret htsp
  obtain rfl := Host.Outcome.next.inj ((step_of_nextInstr_call hcall hsp).symm.trans hc)
  obtain ⟨-, hentry⟩ := run_keeps_live_entry (i := ⟨s.sp.val, hsp⟩) (Nat.lt_succ_self s.sp.val) hk hpop
  obtain ⟨u, hu, hpc, husp⟩ := exists_step_of_nextInstr_ret (h := ⟨s.sp.val, hsp⟩) hret htsp
  refine ⟨u, hu, ?_, Fin.ext husp⟩
  rw [hpc, hentry]
  exact Vector.getElem_set_self hsp

/-- Settles O24: the flag is written last, so it is the carry whatever the destination, and a destination other than 15
keeps the sum. -/
theorem addIntoFlagKeepsCarry : Obligations.AddIntoFlagKeepsCarry := by
  intro y s
  refine ⟨?_, fun x hx => ?_⟩
  · obtain ⟨t, ht⟩ := exists_exec_eq_next (.add 15 y) s
    exact ⟨t, ht, exec_add_flag_toNat ht, fun i hi => exec_add_reg_of_ne ht hi hi⟩
  · obtain ⟨t, ht⟩ := exists_exec_eq_next (.add x 15) s
    exact ⟨t, ht, exec_add_dest_toNat ht hx, exec_add_flag_toNat ht⟩

/-- Settles O26: the carry is the quotient and the sum byte the remainder of the true sum by 256, and the sum byte is the
sum of bit vectors. -/
theorem addArithmeticLaws : Obligations.AddArithmeticLaws := by
  intro a b
  refine ⟨?_, ?_, ?_, carryByte_comm a b⟩
  · rw [carryByte_toNat, sumByte_toNat, Nat.div_add_mod]
  · rw [sumByte_eq_add, BitVec.toInt_add]
  · rw [sumByte_eq_add, sumByte_eq_add, BitVec.add_comm]

/-- Settles O27: an ADD writes a carry, and every other step keeps the registers. -/
theorem flagStaysZeroOrOne : Obligations.FlagStaysZeroOrOne := by
  intro s t h hflag
  by_cases hadd : ∃ x y, s.nextInstr = some (.add x y)
  · obtain ⟨x, y, hxy⟩ := hadd
    rw [step_flag_of_add h hxy]
    exact carryByte_zero_or_one _ _
  · rw [step_v_of_not_add h fun x y hxy => hadd ⟨x, y, hxy⟩]
    simpa [hadd] using hflag

/-- Settles O28: ADD writes two registers and nothing else. -/
theorem addFrame : Obligations.AddFrame := by
  intro x y s t h
  refine ⟨fun i => exec_add_reg_of_ne h, ?_⟩
  obtain rfl := Host.Outcome.next.inj ((exec_add_eq_next x y s).symm.trans h)
  exact ⟨rfl, rfl, rfl, rfl, rfl, fun _ => rfl⟩

/-- Settles O29, by the five effects of the three actions. -/
theorem haltReturnCallFrame : Obligations.HaltReturnCallFrame := by
  intro i s t hi h
  cases exec_eq_next_iff.1 h with
  | halt => exact ⟨rfl, fun _ => rfl, fun _ hj => absurd rfl hj, fun _ => ⟨rfl, rfl, rfl⟩, fun hne => absurd rfl hne⟩
  | underflow | overflow => exact ⟨rfl, fun _ => rfl, fun _ hj => absurd rfl hj, nofun, fun _ => .inr ⟨rfl, rfl, rfl, rfl⟩⟩
  | ret => exact ⟨rfl, fun _ => rfl, fun _ hj => absurd rfl hj, nofun, fun _ => .inl ⟨rfl, rfl⟩⟩
  | call nnn hsp =>
    refine ⟨rfl, fun _ => rfl, fun j hj => ⟨?_, nnn, rfl⟩, nofun, fun _ => .inl ⟨rfl, rfl⟩⟩
    by_contra hne
    exact hj (Vector.getElem_set_ne hsp _ (Ne.symm hne))
  | add x y => exact absurd rfl (hi x y)

/-- Settles O30: the three other actions do the same with any register file, and what ADD writes are functions of its two
sources. -/
theorem onlyAddTouchesRegisters : Obligations.OnlyAddTouchesRegisters := by
  refine ⟨fun i s t v' hi h => exec_ignores_registers hi h v', fun x y s s' t t' h h' hx hy => ?_,
    fun x y s t h i => exec_add_reg_of_ne h⟩
  have hflag : t.v[15] = t'.v[15] := by rw [exec_add_flag h, exec_add_flag h', hx, hy]
  refine ⟨?_, hflag⟩
  by_cases h15 : x = 15
  · subst h15
    exact hflag
  · rw [exec_add_dest h h15, exec_add_dest h' h15, hx, hy]

end Sys2Proof.Proofs

/-! The step computed from its fetch and decoding, the pc and the fault record it leaves (10_state.md R29, 40_step_cycle.md
R98, 60_exceptions.md R141 to R147), and why a stale stack entry cannot be seen (10_state.md R35). -/

namespace Sys2Proof.Machine

/-! ### Each of the nine effects is the step's (R92, R98) -/

theorem StepEffect.step_eq {s t : State} (e : StepEffect s t) : step s = .next t := by
  cases e with
  | terminal hr => exact step_of_not_running hr
  | fetchFault hr hf => exact step_of_fetch_none hr hf
  | illegal w hr hf hd => exact step_of_not_wordLegal hr hf (not_wordLegal_iff.2 hd)
  | halt w hr hf hd => exact step_of_decode_ok hr hf hd
  | underflow w hr hf hd hsp =>
    rw [step_of_decode_ok hr hf hd, exec_ret_of_empty (s := s.advance) hsp, State.raiseAt_advance]
  | ret w hr hf hd hsp => exact step_of_nextInstr_ret (State.nextInstr_of_decode_ok hr hf hd) hsp
  | overflow w nnn hr hf hd hsp =>
    rw [step_of_decode_ok hr hf hd, exec_call_of_full (s := s.advance) hsp, State.raiseAt_advance]
  | call w nnn hr hf hd hsp => exact step_of_nextInstr_call (State.nextInstr_of_decode_ok hr hf hd) hsp
  | add w x y hr hf hd => exact (step_of_decode_ok hr hf hd).trans (exec_add_eq_next x y s.advance)

/-! ### The fault record after a step (R141 to R147) -/

/-- A fault writes its cause, the pc before the step and the word fetched, and of the rest the pc alone (R147). -/
theorem step_faulted {s t : State} (hr : s.runState = .running) (h : step s = .next t) (ht : t.runState = .faulted) :
    t.v = s.v ∧ t.stack = s.stack ∧ t.sp = s.sp ∧ t.fault.addr = s.pc ∧ t.fault.word = s.fetch ∧
    ((t.fault.cause = .outOfBoundsFetch ∧ t.pc = s.pc) ∨
      (t.fault.cause ≠ .outOfBoundsFetch ∧ t.fault.cause ≠ .noFault ∧ t.pc = s.pc + 2#16)) := by
  cases step_effect h with
  | terminal hn => exact absurd hr hn
  | fetchFault _ hf => exact ⟨rfl, rfl, rfl, rfl, hf.symm, .inl ⟨rfl, rfl⟩⟩
  | illegal w _ hf => exact ⟨rfl, rfl, rfl, rfl, hf.symm, .inr ⟨nofun, nofun, rfl⟩⟩
  | underflow w _ hf hd | overflow w _ _ hf hd =>
    have hword : some (encode _) = s.fetch := (congrArg some (encode_of_decode_ok hd)).trans hf.symm
    exact ⟨rfl, rfl, rfl, rfl, hword, .inr ⟨nofun, nofun, rfl⟩⟩
  | halt => cases ht
  | ret | call | add => simp [hr] at ht

/-- The cause a step records, from a machine with no fault recorded, by the fetch and the instruction (R141). -/
theorem step_cause_iff {s t : State} (hr : s.runState = .running) (hno : s.fault.cause = .noFault)
    (h : step s = .next t) :
    (t.fault.cause = .unimplementedOpcode ↔ ∃ w, s.fetch = some w ∧ wordLegal w = false) ∧
    (t.fault.cause = .stackOverflow ↔ ∃ nnn, s.nextInstr = some (.call nnn) ∧ s.sp.val = Config.stackDepth) ∧
    (t.fault.cause = .stackUnderflow ↔ s.nextInstr = some .ret ∧ s.sp.val = 0) ∧
    (t.fault.cause = .outOfBoundsFetch ↔ s.fetch = none) := by
  cases step_effect h with
  | terminal hn => exact absurd hr hn
  | fetchFault _ hf => simp [hf, (State.nextInstr_eq_none_iff hr).2 (.inl hf)]
  | illegal w _ hf hd =>
    have hillegal := not_wordLegal_iff.2 hd
    simp [hf, hillegal, (State.nextInstr_eq_none_iff hr).2 (.inr ⟨w, hf, hillegal⟩)]
  | halt w _ hf hd | add w _ _ _ hf hd =>
    simp [hf, hno, wordLegal_of_decode_ok hd, State.nextInstr_of_decode_ok hr hf hd]
  | underflow w _ hf hd hsp | overflow w _ _ hf hd hsp =>
    simp [hf, hsp, wordLegal_of_decode_ok hd, State.nextInstr_of_decode_ok hr hf hd]
  | ret w _ hf hd hsp =>
    simp [hf, hno, hsp.ne', wordLegal_of_decode_ok hd, State.nextInstr_of_decode_ok hr hf hd]
  | call w _ _ hf hd hsp =>
    simp [hf, hno, hsp.ne, wordLegal_of_decode_ok hd, State.nextInstr_of_decode_ok hr hf hd]

theorem State.spBits_toNat (s : State) : s.spBits.toNat = s.sp.val := by
  have := s.sp.isLt
  have := Config.stackDepth_eq
  rw [State.spBits, BitVec.toNat_ofNat]
  omega

end Sys2Proof.Machine

namespace Sys2Proof.Safety

open Sys2Proof.Machine

/-! ### Stale entries (R35, R43) -/

/-- A push at the same height keeps the agreement of the entries below and adds an equal one. -/
theorem live_set_eq {st st' : Vector Word Config.stackDepth} {n : Nat} (hn : n < Config.stackDepth) (p : Word)
    (hlive : ∀ i : Fin Config.stackDepth, i.val < n → st[i] = st'[i]) (i : Fin Config.stackDepth)
    (hi : i.val < n + 1) : (st.set n p)[i] = (st'.set n p)[i] := by
  simp only [Fin.getElem_fin, Vector.getElem_set]
  split_ifs with heq
  · rfl
  · exact hlive i (Nat.lt_of_le_of_ne (Nat.le_of_lt_succ hi) (Ne.symm heq))

/-- No effect of a step looks at an entry that is not live: RETURN reads the newest live one, and CALL writes only. -/
theorem stepEffect_of_sameButStale {s t s' : State} (hst : SameButStale s t) (e : StepEffect s s') :
    ∃ t', StepEffect t t' ∧ SameButStale s' t' := by
  obtain ⟨mem, v, stack, sp, pc, rs, fault⟩ := s
  obtain ⟨mem', v', stack', sp', pc', rs', fault'⟩ := t
  obtain ⟨rfl, rfl, rfl, rfl, rfl, rfl, hlive⟩ := hst
  cases e with
  | terminal hr => exact ⟨_, .terminal hr, rfl, rfl, rfl, rfl, rfl, rfl, hlive⟩
  | fetchFault hr hf => exact ⟨_, .fetchFault hr hf, rfl, rfl, rfl, rfl, rfl, rfl, hlive⟩
  | illegal w hr hf hd => exact ⟨_, .illegal w hr hf hd, rfl, rfl, rfl, rfl, rfl, rfl, hlive⟩
  | halt w hr hf hd => exact ⟨_, .halt w hr hf hd, rfl, rfl, rfl, rfl, rfl, rfl, hlive⟩
  | underflow w hr hf hd hsp => exact ⟨_, .underflow w hr hf hd hsp, rfl, rfl, rfl, rfl, rfl, rfl, hlive⟩
  | overflow w nnn hr hf hd hsp => exact ⟨_, .overflow w nnn hr hf hd hsp, rfl, rfl, rfl, rfl, rfl, rfl, hlive⟩
  | add w x y hr hf hd => exact ⟨_, .add w x y hr hf hd, rfl, rfl, rfl, rfl, rfl, rfl, hlive⟩
  | ret w hr hf hd hsp =>
    have hbound : sp.val - 1 < Config.stackDepth := by omega
    have hpopped := hlive ⟨sp.val - 1, hbound⟩ (Nat.sub_lt hsp Nat.one_pos)
    exact ⟨_, .ret (s := ⟨mem, v, stack', sp, pc, rs, fault⟩) w hr hf hd hsp, rfl, rfl, rfl,
      hpopped, rfl, rfl, fun i hi => hlive i (Nat.lt_of_lt_of_le hi (Nat.sub_le ..))⟩
  | call w nnn hr hf hd hsp =>
    exact ⟨_, .call (s := ⟨mem, v, stack', sp, pc, rs, fault⟩) w nnn hr hf hd hsp, rfl, rfl, rfl, rfl, rfl,
      rfl, live_set_eq hsp _ hlive⟩

end Sys2Proof.Safety

namespace Sys2Proof.Proofs

open Sys2Proof.Machine Sys2Proof.Safety

/-- Settles O49: from the second state the same effect happens, and it leaves the live entries equal. -/
theorem staleEntriesUnobservable : Obligations.StaleEntriesUnobservable := by
  intro s t s' hst h
  obtain ⟨t', ht', hst'⟩ := stepEffect_of_sameButStale hst (step_effect h)
  exact ⟨t', ht'.step_eq, hst'⟩

/-- Settles O10: each effect of a Running machine, with its fetch and decoding, names the pc of the table. -/
theorem pcAfterEachStep : Obligations.PcAfterEachStep := by
  intro s hr
  obtain ⟨t, ht⟩ := exists_step_eq_next s
  refine ⟨t, ht, ?_⟩
  cases step_effect ht with
  | terminal hn => exact absurd hr hn
  | fetchFault _ hf => simp [hf]
  | illegal w _ hf hd | halt w _ hf hd | add w _ _ _ hf hd => simp [hf, hd]
  | underflow w _ hf hd hsp | overflow w _ _ hf hd hsp => simp [hf, hd, hsp]
  | ret w _ hf hd hsp => simp [hf, hd, hsp.ne']
  | call w nnn _ hf hd hsp => simp [hf, hd, hsp.ne]

/-- Settles O12, by the fetch and the decoding. -/
theorem everyStateSteps : Obligations.EveryStateSteps := exists_step_eq_next

/-- Settles O34: no row selects the word, so the decoder rejects it after the advance. -/
theorem illegalWordFaults : Obligations.IllegalWordFaults := fun _ _ => step_of_not_wordLegal

/-- Settles O36, by the four effects that take a fault; memory is kept by every step. -/
theorem faultsArePrecise : Obligations.FaultsArePrecise := by
  intro s t hr h ht
  obtain ⟨hv, hstack, hsp, haddr, hword, hcause⟩ := step_faulted hr h ht
  exact ⟨hv, hstack, hsp, step_mem h, haddr, hword, hcause⟩

/-- Settles O37, by the nine effects; the fetch fails exactly from 0xFFF on. -/
theorem faultCausesExact : Obligations.FaultCausesExact := by
  intro s hr hno
  obtain ⟨t, ht⟩ := exists_step_eq_next s
  obtain ⟨hillegal, hoverflow, hunderflow, hfetch⟩ := step_cause_iff hr hno ht
  exact ⟨t, ht, hillegal, hoverflow, hunderflow, hfetch.trans State.fetch_eq_none_iff⟩

/-- Settles O8: the bound of the fetch, and the advance under it. -/
theorem fetchBoundAndAdvance : Obligations.FetchBoundAndAdvance := by
  refine fun s => ⟨State.fetch_eq_none_iff, fun w hf => ?_⟩
  obtain ⟨hpc, hle⟩ := State.advanced_pc_toNat hf
  exact ⟨hpc, hpc.trans_le hle⟩

/-- Settles O9, by the step's fetch and decoding. -/
theorem stepRunsDecodedInstruction : Obligations.StepRunsDecodedInstruction := fun _ _ _ => step_of_decode_ok

/-- Settles O13: a cycle is run in Running only. -/
theorem terminalStatesAbsorb : Obligations.TerminalStatesAbsorb := fun _ => step_of_not_running

/-- Settles O33: the record and the run state are written, and Faulted is terminal. -/
theorem raiseWritesFaultAndRunState : Obligations.RaiseWritesFaultAndRunState := fun _ _ _ _ =>
  ⟨rfl, step_of_not_running nofun⟩

/-- Settles O35: the fetch fails, and the fault is taken before the advance. -/
theorem outOfBoundsFetchFaults : Obligations.OutOfBoundsFetchFaults := fun _ hr hpc =>
  step_of_fetch_none hr (State.fetch_eq_none_iff.2 hpc)

/-- Settles O38: the codes by their tables; a height of at most 16 fits in five bits. -/
theorem numericCodes : Obligations.NumericCodes := by
  refine ⟨rfl, rfl, rfl, rfl, rfl, rfl, rfl, rfl, fun s => ⟨s.spBits_toNat, ?_⟩⟩
  rw [s.spBits_toNat]
  exact Nat.le_of_lt_succ s.sp.isLt

end Sys2Proof.Proofs

/-! The host beside the machine: what its moves and the session's steps do, which states it can launch from, and that every
memory image and every launch state can be prepared (70_reset_and_hazards.md R170 to R177). -/

namespace Sys2Proof.Machine

/-! ### The host's moves (R172, R174) -/

theorem State.loadByte_of_lt (s : State) {a : Nat} (ha : a < Config.memSize) (b : Byte) :
    s.loadByte a b = { s with mem := s.mem.write a b } := if_pos ha

theorem Session.move_loadByte {z : Session} (hz : z.launched = false) {a : Nat} (ha : a < Config.memSize) (b : Byte) :
    z.move (.loadByte a b) = some { z with machine := z.machine.loadByte a b } := if_pos ⟨hz, ha⟩

theorem Session.move_setPC {z : Session} (hz : z.launched = false) (p : Word) :
    z.move (.setPC p) = some { z with machine := z.machine.setPC p } := if_pos hz

theorem Session.move_setReg {z : Session} (hz : z.launched = false) (i : RegIdx) (b : Byte) :
    z.move (.setReg i b) = some { z with machine := z.machine.writeReg i b } := if_pos hz

theorem Session.move_launch {z : Session} (hz : z.launched = false) :
    z.move .launch = some { z with launched := true } := if_pos hz

/-- After launch every move but reset is gone. -/
theorem Session.move_of_launched {z : Session} (hz : z.launched = true) {m : HostMove} (hm : m ≠ .reset) :
    z.move m = none := by
  cases m with
  | reset => exact absurd rfl hm
  | loadByte | setPC | setReg | launch => simp [Session.move, hz]

/-- A move is a reset, or it comes before launch and writes memory, registers and pc only, memory in canonical form. -/
theorem Session.move_cases {z z' : Session} {m : HostMove} (h : z.move m = some z') :
    z' = Session.start ∨
    (z.launched = false ∧ ∃ mem v pc, (z.machine.mem.wf → Memory.wf mem) ∧
      z'.machine = { z.machine with mem := mem, v := v, pc := pc }) := by
  by_cases hm : m = .reset
  · subst hm
    exact .inl (Option.some.inj h).symm
  · have hz : z.launched = false := by
      by_contra hlaunched
      simp [Session.move_of_launched (Bool.eq_true_of_not_eq_false hlaunched) hm] at h
    refine .inr ⟨hz, ?_⟩
    cases m with
    | reset => exact absurd rfl hm
    | loadByte a b =>
      have ha : a < Config.memSize := by
        by_contra hout
        simp [Session.move, hout] at h
      obtain rfl := Option.some.inj ((Session.move_loadByte hz ha b).symm.trans h)
      exact ⟨_, _, _, fun hwf => Memory.write_wf hwf ha b, State.loadByte_of_lt _ ha b⟩
    | setPC p =>
      obtain rfl := Option.some.inj ((Session.move_setPC hz p).symm.trans h)
      exact ⟨_, _, p, id, rfl⟩
    | setReg i b =>
      obtain rfl := Option.some.inj ((Session.move_setReg hz i b).symm.trans h)
      exact ⟨_, z.machine.v.set i b, _, id, rfl⟩
    | launch =>
      obtain rfl := Option.some.inj ((Session.move_launch hz).symm.trans h)
      exact ⟨_, _, _, id, rfl⟩

/-! ### The session's steps (R99, R171) -/

theorem Session.tick_of_not_launched {z : Session} (hz : z.launched = false) : z.tick = none := by
  simp [Session.tick, hz]

theorem Session.tick_of_not_running {z : Session} (hr : z.machine.runState ≠ .running) : z.tick = none := by
  simp [Session.tick, hr]

theorem Session.tick_of_step {z : Session} {t : State} (hz : z.launched = true) (hr : z.machine.runState = .running)
    (h : step z.machine = .next t) : z.tick = some ⟨t, true⟩ := by
  simp [Session.tick, hz, hr, h]

/-- What a session's step is: one of its launched machine. -/
theorem Session.tick_cases {z z' : Session} (h : z.tick = some z') :
    z'.launched = true ∧ step z.machine = .next z'.machine := by
  have hz : z.launched = true := by
    by_contra hno
    simp [Session.tick_of_not_launched (Bool.eq_false_of_not_eq_true hno)] at h
  have hr : z.machine.runState = .running := by
    by_contra hno
    simp [Session.tick_of_not_running hno] at h
  obtain ⟨t, ht⟩ := exists_step_eq_next z.machine
  obtain rfl := Option.some.inj ((Session.tick_of_step hz hr ht).symm.trans h)
  exact ⟨rfl, ht⟩

theorem Session.readBack_eq_some_iff {z : Session} {r : State} :
    z.readBack = some r ↔ z.launched = true ∧ z.machine.runState ≠ .running ∧ r = z.machine := by
  simp [Session.readBack, State.ended, and_assoc, eq_comm (a := r)]

/-! ### Memory images (R36, R173) -/

/-- Some canonical memory holds the first `n` bytes of an image, stored one after the other. -/
theorem exists_memory_of_image (image : Fin Config.memSize → Byte) (n : Nat) (hn : n ≤ Config.memSize) :
    ∃ m : Memory, m.wf ∧ ∀ a : Fin Config.memSize, a.val < n → m.read a.val = image a := by
  induction n with
  | zero => exact ⟨[], Memory.wf_nil, fun a ha => absurd ha (Nat.not_lt_zero _)⟩
  | succ n ih =>
    obtain ⟨m, hwf, hread⟩ := ih (Nat.le_of_succ_le hn)
    refine ⟨m.write n (image ⟨n, hn⟩), Memory.write_wf hwf hn _, fun a ha => ?_⟩
    rcases Nat.lt_succ_iff_lt_or_eq.1 ha with hlt | rfl
    · rw [Memory.read_write_other m _ hlt.ne, hread a hlt]
    · rw [Memory.read_write_same hwf]

/-- Canonical memories that hold the same bytes inside memory are the same; outside both read as unlisted. -/
theorem Memory.ext_of_image {m m' : Memory} (hm : m.wf) (hm' : m'.wf)
    (h : ∀ a : Fin Config.memSize, m.read a.val = m'.read a.val) : m = m' := by
  refine Memory.ext_of_read hm hm' fun a => ?_
  rcases Nat.lt_or_ge a Config.memSize with ha | ha
  · exact h ⟨a, ha⟩
  · rw [Memory.read_outside hm ha, Memory.read_outside hm' ha]

/-- A store below every listed address lists the byte first. -/
theorem Memory.write_below {m : Memory} {a : Nat} {b : Byte} (ha : ∀ c ∈ m, a < c.1) (hb : b ≠ Memory.unlisted) :
    m.write a b = (a, b) :: m := by
  cases m with
  | nil => simp [Memory.write, hb]
  | cons c rest =>
    have hc : a < c.1 := ha c (List.mem_cons_self ..)
    simp [Memory.write, hc, hb]

end Sys2Proof.Machine

namespace Sys2Proof.Safety

open Sys2Proof.Machine

/-! ### Reset and the preparation of a launch (R40, R173) -/

theorem inv_reset : Inv State.reset where
  memory := Memory.wf_nil
  record := ⟨iff_of_true rfl nofun, iff_of_true rfl (.inl rfl)⟩
  entries := fun _ hi => absurd hi (Nat.not_lt_zero _)

theorem launchPremises_reset : LaunchPremises State.reset where
  running := rfl
  noFault := ⟨rfl, rfl⟩
  stackEmpty := rfl
  stackZero := fun i => Vector.getElem_replicate i.isLt
  memory := Memory.wf_nil
  regs := launchRegs_any _
  pc := launchPC_any _

section Preparation

variable {s : State} {mem : Memory} (v : Vector Byte Config.nregs) (pc : Word)

/-- The invariant speaks of memory, and of nothing else that the host can write. -/
theorem Inv.prepare (hs : Inv s) (hmem : Memory.wf mem) : Inv { s with mem := mem, v := v, pc := pc } where
  memory := hmem
  record := ⟨hs.record.cause_iff, hs.record.word_iff⟩
  entries := hs.entries

theorem LaunchPremises.prepare (hs : LaunchPremises s) (hmem : Memory.wf mem) :
    LaunchPremises { s with mem := mem, v := v, pc := pc } where
  running := hs.running
  noFault := hs.noFault
  stackEmpty := hs.stackEmpty
  stackZero := hs.stackZero
  memory := hmem
  regs := launchRegs_any _
  pc := launchPC_any _

end Preparation

/-! ### Sessions before launch and after (R171 to R174) -/

theorem inv_of_reachable {z : Session} (hz : Reachable z) : Inv z.machine := by
  induction hz with
  | start => exact inv_reset
  | move m z z' _ h ih =>
    rcases Session.move_cases h with rfl | ⟨-, mem, v, pc, hmem, hz'⟩
    · exact inv_reset
    · exact hz' ▸ ih.prepare v pc (hmem ih.memory)
  | tick z z' _ h ih => exact step_keeps_inv ih (Session.tick_cases h).2

theorem launchPremises_of_reachable {z : Session} (hz : Reachable z) (hbefore : z.launched = false) :
    LaunchPremises z.machine := by
  induction hz with
  | start => exact launchPremises_reset
  | move m z z' _ h ih =>
    rcases Session.move_cases h with rfl | ⟨hz, mem, v, pc, hmem, hz'⟩
    · exact launchPremises_reset
    · exact hz' ▸ (ih hz).prepare v pc (hmem (ih hz).memory)
  | tick z z' _ h => simp [(Session.tick_cases h).1] at hbefore

/-! ### Every preparation is made of host moves (R173) -/

/-- A canonical memory is loaded from its last cell to its first. -/
theorem reachable_of_memory {m : Memory} (hm : m.wf) : Reachable ⟨{ State.reset with mem := m }, false⟩ := by
  induction m with
  | nil => exact .start
  | cons c rest ih =>
    obtain ⟨k, b⟩ := c
    obtain ⟨hk, hb⟩ : k < Config.memSize ∧ b ≠ Memory.unlisted := hm.2 (k, b) (List.mem_cons_self ..)
    refine .move (.loadByte k b) _ _ (ih (Memory.wf_tail hm)) ((Session.move_loadByte rfl hk b).trans ?_)
    rw [State.loadByte_of_lt _ hk, Memory.write_below (List.pairwise_cons.1 hm.1).1 hb]

/-- The first `n` registers are set one after the other. -/
theorem reachable_of_registers {s : State} (hs : Reachable ⟨s, false⟩) (v : Vector Byte Config.nregs) (n : Nat)
    (hn : n ≤ Config.nregs) :
    ∃ u : Vector Byte Config.nregs, Reachable ⟨{ s with v := u }, false⟩ ∧ ∀ i : RegIdx, i.val < n → u[i] = v[i] := by
  induction n with
  | zero => exact ⟨s.v, hs, fun i hi => absurd hi (Nat.not_lt_zero _)⟩
  | succ n ih =>
    obtain ⟨u, hu, hset⟩ := ih (Nat.le_of_succ_le hn)
    refine ⟨u.set n v[n], .move (.setReg ⟨n, hn⟩ v[n]) _ _ hu (Session.move_setReg rfl _ _), fun i hi => ?_⟩
    rcases Nat.lt_succ_iff_lt_or_eq.1 hi with hlt | rfl
    · exact (Vector.getElem_set_ne hn _ hlt.ne').trans (hset i hlt)
    · exact Vector.getElem_set_self hn

theorem reachable_of_registers_all {s : State} (hs : Reachable ⟨s, false⟩) (v : Vector Byte Config.nregs) :
    Reachable ⟨{ s with v := v }, false⟩ := by
  obtain ⟨u, hu, hset⟩ := reachable_of_registers hs v Config.nregs le_rfl
  obtain rfl : u = v := Vector.ext fun i hi => hset ⟨i, hi⟩ hi
  exact hu

/-- A launch state is the reset state with another memory, other registers and another pc. -/
theorem LaunchPremises.eq_prepared {s : State} (hs : LaunchPremises s) (haddr : s.fault.addr = 0#16) :
    s = { State.reset with mem := s.mem, v := s.v, pc := s.pc } := by
  obtain ⟨mem, v, stack, sp, pc, rs, ⟨cause, addr, word⟩⟩ := s
  obtain ⟨hrunning, ⟨hcause, hword⟩, hempty, hzero, -, -, -⟩ := hs
  obtain rfl : rs = .running := hrunning
  obtain rfl : cause = .noFault := hcause
  obtain rfl : word = none := hword
  obtain rfl : sp = 0 := hempty
  obtain rfl : addr = 0#16 := haddr
  obtain rfl : stack = State.reset.stack :=
    Vector.ext fun i hi => (hzero ⟨i, hi⟩).trans (launchPremises_reset.stackZero ⟨i, hi⟩).symm
  rfl

end Sys2Proof.Safety

namespace Sys2Proof.Proofs

open Sys2Proof.Machine Sys2Proof.Safety

/-- Settles O41: the move is one store of memory, and the laws of memory say the rest. -/
theorem loadByteStoresOneByte : Obligations.LoadByteStoresOneByte := by
  intro z a b hz ha hwf
  refine ⟨_, Session.move_loadByte hz ha b, hz, ?_⟩
  rw [State.loadByte_of_lt _ ha]
  exact ⟨Memory.write_wf hwf ha b, Memory.read_write_same hwf a b, fun _ hne => Memory.read_write_other _ b hne, rfl⟩

/-- Settles O42: reset meets the premises, and before launch the host writes memory, registers and pc only. -/
theorem hostReachesOnlyLaunchStates : Obligations.HostReachesOnlyLaunchStates := fun _ =>
  launchPremises_of_reachable

/-- Settles O43: the bytes are loaded, then the registers and the pc are set, and nothing else of a launch state differs
from reset. -/
theorem hostReachesEveryLaunchState : Obligations.HostReachesEveryLaunchState := by
  intro s hs haddr
  rw [hs.eq_prepared haddr]
  exact .move (.setPC s.pc) _ _ (reachable_of_registers_all (reachable_of_memory hs.memory) s.v)
    (Session.move_setPC rfl s.pc)

/-- Settles O46: the invariant holds at reset, and neither the host's moves nor a step break it. -/
theorem reachableMeetsInvariant : Obligations.ReachableMeetsInvariant := fun _ => inv_of_reachable

/-- Settles O55: the image is stored byte by byte, and canonical memories with equal reads are equal. -/
theorem everyImageIsOneMemory : Obligations.EveryImageIsOneMemory := by
  intro image
  obtain ⟨m, hwf, hread⟩ := exists_memory_of_image image Config.memSize le_rfl
  exact ⟨m, ⟨hwf, fun a => hread a a.isLt⟩,
    fun m' hwf' hread' => Memory.ext_of_image hwf' hwf fun a => (hread' a).trans (hread a a.isLt).symm⟩

/-- Settles O39: the fields of the reset state, and the HALT that its zero memory holds at address 0. -/
theorem resetState : Obligations.ResetState := by
  have hfetch : State.reset.fetch = some 0x0000#16 := by decide
  exact ⟨fun _ => rfl, fun i => Vector.getElem_replicate i.isLt, launchPremises_reset.stackZero, rfl, rfl, rfl, rfl,
    step_of_fetch_halt rfl hfetch⟩

/-- Settles O40: memory is empty, no fault is recorded and no entry is live. -/
theorem resetMeetsInvariant : Obligations.ResetMeetsInvariant := inv_reset

/-- Settles O44: every other move is gone, and reset gives the session at its start. -/
theorem onlyResetAfterLaunch : Obligations.OnlyResetAfterLaunch := by
  intro z z' m hz
  by_cases hm : m = .reset
  · subst hm
    simp [Session.move, Session.start, eq_comm]
  · simp [Session.move_of_launched hz hm, hm]

/-- Settles O53: the three moves as the host makes them before launch. -/
theorem presetAndLaunchMoves : Obligations.PresetAndLaunchMoves := by
  rintro ⟨s, launched⟩ hz
  obtain rfl : launched = false := hz
  exact ⟨Session.move_setPC rfl, Session.move_setReg rfl, Session.move_launch rfl⟩

/-- Settles O54: the step and the two readings by the phase. -/
theorem stepsAndReadBackByPhase : Obligations.StepsAndReadBackByPhase := by
  refine fun z => ⟨fun hz => ⟨Session.tick_of_not_launched hz, ?_, ?_⟩, fun hz => if_pos hz,
    fun t => Session.tick_of_step, Session.tick_of_not_running, fun r => Session.readBack_eq_some_iff⟩
  · simp [Session.readRunState, hz]
  · simp [Session.readBack, hz]

end Sys2Proof.Proofs

/-! Why every run ends (70_reset_and_hazards.md R188, R189): a step that leaves the machine Running moves the pc up at its
height, or goes up one height over the advanced pc, or goes down one to the entry there. -/

namespace Sys2Proof.Machine

/-! ### Stack entries by number (R34) -/

/-- Entry `i` of the stack, as the variant and the count of R189 read it. -/
def State.entry (s : State) (i : Nat) : Word := s.stack.toList.getD i 0#16

theorem State.entry_eq (s : State) {i : Nat} (hi : i < Config.stackDepth) : s.entry i = s.stack[i] := by
  rw [State.entry, List.getD_eq_getElem _ _ (by simpa using hi), Vector.getElem_toList]

theorem State.entry_congr {s t : State} (h : t.stack = s.stack) (i : Nat) : t.entry i = s.entry i := by
  rw [State.entry, State.entry, h]

/-! ### A step from Running to Running -/

/-- The advance on one height: ADD is the one instruction that goes on with the next. -/
structure GoesOn (s t : State) : Prop where
  sp : t.sp.val = s.sp.val
  entries : ∀ i, t.entry i = s.entry i
  pc : t.pc.toNat = s.pc.toNat + 2

/-- A CALL: the return point is the entry at the old height. -/
structure GoesUp (s t : State) : Prop where
  sp : t.sp.val = s.sp.val + 1
  entries : ∀ i < s.sp.val, t.entry i = s.entry i
  saved : (t.entry s.sp.val).toNat = s.pc.toNat + 2

/-- `t` stands at the return point of the height below, the entries up to that of `s` as they were. -/
structure ReturnsBelow (s t : State) : Prop where
  sp : t.sp.val + 1 = s.sp.val
  entries : ∀ i < s.sp.val, t.entry i = s.entry i
  pc : t.pc = s.entry t.sp.val

theorem step_running_cases {s t : State} (hr : s.runState = .running) (h : step s = .next t)
    (ht : t.runState = .running) :
    s.pc.toNat < 4095 ∧ (GoesOn s t ∨ GoesUp s t ∨ ReturnsBelow s t) := by
  cases step_effect h with
  | terminal hn => exact absurd hr hn
  | fetchFault | illegal | halt | underflow | overflow => cases ht
  | add w x y _ hf =>
    obtain ⟨hpc, hle⟩ := State.advanced_pc_toNat hf
    exact ⟨by omega, .inl ⟨rfl, State.entry_congr rfl, hpc⟩⟩
  | ret w _ hf hd hsp =>
    obtain ⟨-, hle⟩ := State.advanced_pc_toNat hf
    have hbound : s.sp.val - 1 < Config.stackDepth := by omega
    exact ⟨by omega, .inr (.inr ⟨Nat.sub_add_cancel hsp, fun i _ => State.entry_congr rfl i, (s.entry_eq hbound).symm⟩)⟩
  | call w nnn _ hf hd hsp =>
    obtain ⟨hpc, hle⟩ := State.advanced_pc_toNat hf
    refine ⟨by omega, .inr (.inl ⟨rfl, fun i hi => ?_, ?_⟩)⟩
    · rw [State.entry_eq _ (hi.trans hsp), State.entry_eq _ (hi.trans hsp), Vector.getElem_set_ne hsp _ hi.ne']
    · rw [State.entry_eq _ hsp, Vector.getElem_set_self, hpc]

/-! ### Runs, one after the other -/

theorem run_add {m n : Nat} {s t u : State} (hm : core.run m s = .next t) (hn : core.run n t = .next u) :
    core.run (m + n) s = .next u := by
  induction m generalizing s with
  | zero =>
    obtain rfl := Host.Outcome.next.inj hm
    rwa [Nat.zero_add]
  | succ m ih =>
    obtain ⟨v, hv, hm'⟩ := run_succ_eq_next_iff.1 hm
    rw [Nat.succ_add]
    exact run_succ_eq_next_iff.2 ⟨v, hv, ih hm'⟩

theorem run_one {s t : State} (h : step s = .next t) : core.run 1 s = .next t :=
  run_succ_eq_next_iff.2 ⟨t, h, rfl⟩

end Sys2Proof.Machine

namespace Sys2Proof.Safety

open Sys2Proof.Machine

/-! ### The variant (R189) -/

theorem variantAt_live {s : State} {i : Nat} (h : i < s.sp.val) : variantAt s i = (s.entry i).toNat := if_pos h

theorem variantAt_height (s : State) : variantAt s s.sp.val = s.pc.toNat := by simp [variantAt]

theorem variantAt_above {s : State} {i : Nat} (h : s.sp.val < i) : variantAt s i = 65536 := by
  rw [variantAt, if_neg h.not_gt, if_neg h.ne']

/-- The tuples agree below a component that grows. -/
theorem variant_lt {s t : State} {i : Nat} (hi : i ≤ Config.stackDepth)
    (hbelow : ∀ j < i, variantAt s j = variantAt t j) (hat : variantAt s i < variantAt t i) :
    variant s < variant t := by
  have hlength (u : State) : i < (variant u).length := by simpa [variant] using Nat.lt_succ_of_le hi
  refine List.lt_iff_exists.2 (.inr ⟨i, hlength s, hlength t, fun j hj => ?_, ?_⟩)
  · simpa [variant] using hbelow j hj
  · simpa [variant] using hat

/-- Live entries that are kept are components that are kept. -/
theorem variantAt_eq_of_entry {s t : State} {i : Nat} (hs : i < s.sp.val) (ht : i < t.sp.val)
    (h : t.entry i = s.entry i) : variantAt s i = variantAt t i := by
  rw [variantAt_live hs, variantAt_live ht, h]

theorem variant_lt_of_goesOn {s t : State} (h : GoesOn s t) : variant s < variant t := by
  obtain ⟨hsp, hentries, hpc⟩ := h
  have hle : s.sp.val ≤ Config.stackDepth := Nat.le_of_lt_succ s.sp.isLt
  refine variant_lt hle (fun j hj => variantAt_eq_of_entry hj (hsp ▸ hj) (hentries j)) ?_
  rw [variantAt_height, ← hsp, variantAt_height, hpc]
  omega

theorem variant_lt_of_goesUp {s t : State} (h : GoesUp s t) : variant s < variant t := by
  obtain ⟨hsp, hentries, hsaved⟩ := h
  have hlt : s.sp.val < t.sp.val := hsp ▸ Nat.lt_succ_self _
  have hle : s.sp.val ≤ Config.stackDepth := Nat.le_of_lt_succ s.sp.isLt
  refine variant_lt hle (fun j hj => variantAt_eq_of_entry hj (hj.trans hlt) (hentries j hj)) ?_
  rw [variantAt_height, variantAt_live hlt, hsaved]
  omega

/-- The component at the height left goes from a pc to the value above every 16-bit number. -/
theorem variant_lt_of_returnsBelow {s t : State} (h : ReturnsBelow s t) : variant s < variant t := by
  obtain ⟨hsp, hentries, hpc⟩ := h
  have hlt : t.sp.val < s.sp.val := hsp ▸ Nat.lt_succ_self _
  have hle : s.sp.val ≤ Config.stackDepth := Nat.le_of_lt_succ s.sp.isLt
  refine variant_lt hle (fun j hj => ?_) ?_
  · rcases Nat.lt_succ_iff_lt_or_eq.1 (hsp ▸ hj : j < t.sp.val + 1) with hlive | rfl
    · exact variantAt_eq_of_entry hj hlive (hentries j hj)
    · rw [variantAt_live hj, variantAt_height, hpc]
  · rw [variantAt_height, variantAt_above hlt]
    exact s.pc.isLt

/-! ### The count (R189) -/

/-- The run ends, or returns to the height below, within `bound` steps. -/
def LeavesWithin (bound : Nat) (s : State) : Prop :=
  ∃ (n : Nat) (t : State), n ≤ bound ∧ core.run n s = .next t ∧ (t.runState ≠ .running ∨ ReturnsBelow s t)

/-- `t` is at the height of `s`, over the same live entries. -/
structure SameHeight (s t : State) : Prop where
  sp : t.sp.val = s.sp.val
  entries : ∀ i < s.sp.val, t.entry i = s.entry i

theorem SameHeight.of_goesOn {s t : State} (h : GoesOn s t) : SameHeight s t := ⟨h.sp, fun i _ => h.entries i⟩

/-- A CALL and the RETURN that matches it lead back to the height of the CALL, with the pc past it. -/
theorem sameHeight_of_call_return {s t u : State} (hcall : GoesUp s t) (hret : ReturnsBelow t u) :
    SameHeight s u ∧ u.pc.toNat = s.pc.toNat + 2 := by
  have hsp : u.sp.val = s.sp.val := Nat.succ.inj (hret.sp.trans hcall.sp)
  refine ⟨⟨hsp, fun i hi => ?_⟩, ?_⟩
  · rw [hret.entries i (hcall.sp ▸ Nat.lt_succ_of_lt hi), hcall.entries i hi]
  · rw [hret.pc, hsp, hcall.saved]

/-- Leaving from a later state at the same height is leaving from the first. -/
theorem LeavesWithin.after {n bound : Nat} {s t : State} (hrun : core.run n s = .next t) (hst : SameHeight s t)
    (ht : LeavesWithin bound t) : LeavesWithin (n + bound) s := by
  obtain ⟨m, u, hm, hu, hleft⟩ := ht
  refine ⟨n + m, u, Nat.add_le_add_left hm n, run_add hrun hu, hleft.imp_right fun ⟨hsp, hentries, hpc⟩ => ?_⟩
  have hlt : u.sp.val < s.sp.val := by rw [← hst.sp, ← hsp]; exact Nat.lt_succ_self _
  refine ⟨hsp.trans hst.sp, fun i hi => ?_, ?_⟩
  · rw [hentries i (hst.sp ▸ hi), hst.entries i hi]
  · rw [hpc, hst.entries _ hlt]

theorem LeavesWithin.mono {a b : Nat} {s : State} (h : LeavesWithin a s) (hab : a ≤ b) : LeavesWithin b s := by
  obtain ⟨n, t, hn, ht⟩ := h
  exact ⟨n, t, hn.trans hab, ht⟩

/-- What a CALL can cost beyond its own step, by the free entries at its height: on a full stack it faults. -/
def callCost : Nat → Nat
  | 0 => 0
  | free + 1 => stepBound free

/-- The two equations of T as one: each of the 2048 slots of a height is a step and a call, and one more step leaves. -/
theorem stepBound_eq (free : Nat) : stepBound free = 2048 * (1 + callCost free) + 1 := by
  cases free with
  | zero | succ => rfl

/-- At one height the pc only goes up, so with `slots` slots left above it the height is left after as many slots and a
last step, if each call is. -/
theorem leavesWithin_of_slots {free : Nat}
    (hcall : ∀ u : State, u.runState = .running → u.sp.val + free = 17 → LeavesWithin (callCost free) u)
    (slots : Nat) (s : State) (hr : s.runState = .running) (hfree : s.sp.val + free = 16)
    (hslots : 4095 ≤ s.pc.toNat + 2 * slots) : LeavesWithin (slots * (1 + callCost free) + 1) s := by
  induction slots generalizing s with
  | zero =>
    obtain ⟨t, ht⟩ := exists_step_eq_next s
    refine ⟨1, t, Nat.le_add_left 1 _, run_one ht, .inl fun htr => ?_⟩
    obtain ⟨hpc, -⟩ := step_running_cases hr ht htr
    omega
  | succ slots ih =>
    obtain ⟨t, ht⟩ := exists_step_eq_next s
    have hcount : (slots + 1) * (1 + callCost free) + 1 = 1 + callCost free + (slots * (1 + callCost free) + 1) := by
      rw [Nat.succ_mul]
      omega
    rw [hcount]
    by_cases htr : t.runState = .running
    · rcases (step_running_cases hr ht htr).2 with hon | hup | hdown
      · have hrest := ih t htr (hon.sp ▸ hfree) (by rw [hon.pc]; omega)
        exact (hrest.after (run_one ht) (.of_goesOn hon)).mono (by omega)
      · obtain ⟨n, u, hn, hu, hleft⟩ := hcall t htr (by rw [hup.sp]; omega)
        have hrun := run_add (run_one ht) hu
        by_cases hur : u.runState = .running
        · obtain ⟨hsame, hpc⟩ := sameHeight_of_call_return hup (hleft.resolve_left (absurd hur))
          have hrest := ih u hur (hsame.sp ▸ hfree) (by rw [hpc]; omega)
          exact (hrest.after hrun hsame).mono (by omega)
        · exact ⟨_, u, by omega, hrun, .inl hur⟩
      · exact ⟨1, t, by omega, run_one ht, .inr hdown⟩
    · exact ⟨1, t, by omega, run_one ht, .inl htr⟩

/-- R189 by the free entries: a height is left within its bound if the height above is. -/
theorem leavesWithin_stepBound (free : Nat) :
    ∀ s : State, s.runState = .running → s.sp.val + free = 16 → LeavesWithin (stepBound free) s := by
  induction free with
  | zero =>
    intro s hr hfree
    rw [stepBound_eq]
    refine leavesWithin_of_slots (fun u _ hu => ?_) 2048 s hr hfree (by omega)
    have := u.sp.isLt
    have := Config.stackDepth_eq
    omega
  | succ free ih =>
    intro s hr hfree
    rw [stepBound_eq]
    exact leavesWithin_of_slots (free := free + 1) (fun u hur hu => ih u hur (by omega)) 2048 s hr hfree (by omega)

theorem leavesWithin_of_running {s : State} (hr : s.runState = .running) :
    LeavesWithin (stepBound (16 - s.sp.val)) s :=
  leavesWithin_stepBound _ s hr (Nat.add_sub_of_le (Nat.le_of_lt_succ s.sp.isLt))

theorem endedWell_or_goneWrong {s : State} (h : s.runState ≠ .running) : EndedWell s ∨ GoneWrong s := by
  cases hr : s.runState with
  | running => exact absurd hr h
  | halted => exact .inl hr
  | faulted => exact .inr hr

/-- A run ends because it can go down no more than its height. -/
theorem exists_run_ended (height : Nat) (s : State) (hs : s.sp.val = height) :
    ∃ (n : Nat) (t : State), core.run n s = .next t ∧ t.runState ≠ .running := by
  induction height using Nat.strong_induction_on generalizing s with
  | _ height ih =>
    by_cases hr : s.runState = .running
    · obtain ⟨n, t, -, hrun, hended | hbelow⟩ := leavesWithin_of_running hr
      · exact ⟨n, t, hrun, hended⟩
      · have hlt : t.sp.val < height := by rw [← hs, ← hbelow.sp]; exact Nat.lt_succ_self _
        obtain ⟨m, u, hu, hended⟩ := ih t.sp.val hlt t rfl
        exact ⟨n + m, u, run_add hrun hu, hended⟩
    · exact ⟨0, s, rfl, hr⟩

end Sys2Proof.Safety

namespace Sys2Proof.Proofs

open Sys2Proof.Machine Sys2Proof.Safety

/-- Settles O50: the component at the old height grows, and those below it stay. -/
theorem variantGrowsWhileRunning : Obligations.VariantGrowsWhileRunning := by
  intro s t hr h ht
  rcases (step_running_cases hr h ht).2 with hon | hup | hdown
  · exact variant_lt_of_goesOn hon
  · exact variant_lt_of_goesUp hup
  · exact variant_lt_of_returnsBelow hdown

/-- Settles O51, by induction on the height: the run ends at it or goes below it. -/
theorem everyRunEnds : Obligations.EveryRunEnds := by
  intro s
  obtain ⟨n, t, hrun, hended⟩ := exists_run_ended s.sp.val s rfl
  exact ⟨n, t, hrun, endedWell_or_goneWrong hended⟩

/-- Settles O52: the bound of each height from that of the height above; below height 0 there is none. -/
theorem runLengthIsBounded : Obligations.RunLengthIsBounded := by
  refine ⟨fun s hr => ?_, fun s hs => ?_⟩
  · obtain ⟨n, t, hn, hrun, hleft⟩ := leavesWithin_of_running hr
    refine ⟨n, t, hn, hrun, hleft.imp_right fun hbelow => ⟨hbelow.sp, ?_⟩⟩
    rw [← hbelow.sp, Nat.add_sub_cancel]
    exact hbelow.pc
  · by_cases hr : s.runState = .running
    · obtain ⟨n, t, hn, hrun, hended | hbelow⟩ := leavesWithin_of_running hr
      · exact ⟨n, t, (hs ▸ hn : n ≤ stepBound (16 - 0)), hrun, endedWell_or_goneWrong hended⟩
      · exact absurd (hbelow.sp.trans hs) (Nat.succ_ne_zero _)
    · exact ⟨0, s, Nat.zero_le _, rfl, endedWell_or_goneWrong hr⟩

end Sys2Proof.Proofs
